-- ==== Sys2Proof/Word.lean ====
section
/-! DEFINITION. The word types of the core and the raw transfer on its command port. -/

namespace Sys2Proof

/-- A 64-bit unsigned word: a state word, a message word or a tag (00_scope R6 `W`, R9). -/
abbrev Word := BitVec 64

/-- One byte: a lane, a message byte, a key byte, a digest byte (00_scope R8). -/
abbrev Byte := BitVec 8

/-- One transfer on the command port: the 32-bit command word and the 128-bit data operand that
travels with it (30_encoding R60; 00_scope R6 `CMD_WIDTH`, `DATA_WIDTH`). -/
structure Command where
  word : BitVec 32
  data : BitVec 128
deriving DecidableEq, Repr

end Sys2Proof
end

