-- ==== Sys2Proof/Syntax.lean ====
section
/-! DEFINITION. The five commands (30_encoding R61), one constructor for each row of the opcode table. -/

namespace Sys2Proof

/-- A decoded command with its operands. `cnt` is the byte count of bits 15:8 (R62), a plain count, and `data`
the whole 128-bit operand, ignored lanes included (R65); NOP and CLEAR have no operand. -/
inductive Instr where
  /-- NOP (45_commands R130). -/
  | nop
  /-- INIT (45_commands R131): `cnt` is the declared key length, `data` the key bytes on lanes 0..15. -/
  | init (cnt : Nat) (data : BitVec 128)
  /-- BLOCK (45_commands R132): `cnt` must be 8, lanes 0..7 of `data` are the chunk. -/
  | block (cnt : Nat) (data : BitVec 128)
  /-- LAST (45_commands R133): `cnt` is the number of trailing bytes, on lanes 0..cnt-1 of `data`. -/
  | last (cnt : Nat) (data : BitVec 128)
  /-- CLEAR (45_commands R134). -/
  | clear
deriving DecidableEq, Repr

end Sys2Proof
end

