-- ==== Sys2Proof/WellFormed.lean ====
section
/-! DEFINITION. Which instruction terms have an encoding, and the counts with which a command succeeds. -/

namespace Sys2Proof

/-- An instruction is well formed when its count fits the 8-bit `cnt` field (30_encoding R60, R62). Counts that
are encodable and make the command fail (INIT.15, BLOCK with 4) are well formed: "the command's own rule
checks it". -/
def Instr.wellFormed : Instr → Bool
  | .nop => true
  | .init cnt _ => decide (cnt < 256)
  | .block cnt _ => decide (cnt < 256)
  | .last cnt _ => decide (cnt < 256)
  | .clear => true

/-- The counts with which a command does not raise KEYLEN or CNT (30_encoding R62, third column of its table). -/
def Instr.countSucceeds : Instr → Bool
  | .nop => true
  | .init cnt _ => decide (cnt = 16)
  | .block cnt _ => decide (cnt = 8)
  | .last cnt _ => decide (cnt ≤ 7)
  | .clear => true

/-- Does the command need phase ABSORB (60_exceptions R164: only BLOCK and LAST raise SEQ)? -/
def Instr.needsKey : Instr → Bool
  | .nop => false
  | .init _ _ => false
  | .block _ _ => true
  | .last _ _ => true
  | .clear => false

end Sys2Proof
end

