-- ==== Sys2Proof/Decode.lean ====
section
/-! DEFINITION. The decoder of 30_encoding R66, total on every command word; then the encoder, and the
opcode table as data. -/

namespace Sys2Proof

/-- `op`, bits 3:0 (30_encoding R60). -/
def opField (w : BitVec 32) : BitVec 4 := w.extractLsb' 0 4

/-- `rsv0`, bits 7:4 (R60). -/
def rsv0Field (w : BitVec 32) : BitVec 4 := w.extractLsb' 4 4

/-- `cnt`, bits 15:8 (R60). -/
def cntField (w : BitVec 32) : BitVec 8 := w.extractLsb' 8 8

/-- `rsv1`, bits 31:16 (R60). -/
def rsv1Field (w : BitVec 32) : BitVec 16 := w.extractLsb' 16 16

/-- Why the decoder rejects a word. The hardware records one code, ILLEGAL, for all three (60_exceptions R161:
"No error records the command word"); the model names them apart. -/
inductive Illegal where
  /-- `rsv0` or `rsv1` is not zero (R63). -/
  | reservedField
  /-- The opcode is 0x5 to 0xF (R64). -/
  | reservedOpcode
  /-- NOP or CLEAR with `cnt` not zero (R63). -/
  | countNotZero
deriving DecidableEq, Repr

/-- What the decoder makes of a command: a command of the table, or ILLEGAL with the reason. -/
inductive Decoded where
  | command (i : Instr)
  | illegal (why : Illegal)
deriving DecidableEq, Repr

/-- A command that takes no count: a nonzero one is illegal (R66, third check). -/
def decodeNoCount (w : BitVec 32) (i : Instr) : Decoded :=
  if cntField w = 0 then .command i else .illegal .countNotZero

/-- 30_encoding R66: the checks in the rule's order. -/
def decode (c : Command) : Decoded :=
  if rsv0Field c.word ≠ 0 ∨ rsv1Field c.word ≠ 0 then .illegal .reservedField
  else
    match (opField c.word).toNat with
    | 0 => decodeNoCount c.word .nop
    | 1 => .command (.init (cntField c.word).toNat c.data)
    | 2 => .command (.block (cntField c.word).toNat c.data)
    | 3 => .command (.last (cntField c.word).toNat c.data)
    | 4 => decodeNoCount c.word .clear
    | _ => .illegal .reservedOpcode

/-- The bits of one whole command, numbered as the opcode table numbers them: bits 31:0 are the command word,
and the data operand's bits count on from bit 32. Bits from `nbits` up are zero. -/
def commandOfBits (nbits w : Nat) : Command :=
  { word := BitVec.ofNat 32 (w % 2 ^ nbits), data := BitVec.ofNat 128 ((w % 2 ^ nbits) >>> 32) }

/-- What the decoder reads from a table row's bits (`none` where it raises ILLEGAL). -/
def decodeTableWord (nbits w : Nat) : Option Instr :=
  match decode (commandOfBits nbits w) with
  | .command i => some i
  | .illegal _ => none

/-- The opcode of a command (30_encoding R61). -/
def Instr.opcode : Instr → BitVec 4
  | .nop => 0x0
  | .init _ _ => 0x1
  | .block _ _ => 0x2
  | .last _ _ => 0x3
  | .clear => 0x4

/-- The count a command word carries (R62): 0 for NOP and CLEAR. -/
def Instr.count : Instr → Nat
  | .nop => 0
  | .init cnt _ => cnt
  | .block cnt _ => cnt
  | .last cnt _ => cnt
  | .clear => 0

/-- The data operand a command carries. For NOP and CLEAR the operand is ignored (R65); the encoder sends zero. -/
def Instr.operand : Instr → BitVec 128
  | .nop => 0
  | .init _ data => data
  | .block _ data => data
  | .last _ data => data
  | .clear => 0

/-- The format of 30_encoding R60: `rsv1 ++ cnt ++ rsv0 ++ op` with the reserved fields zero. -/
def commandWord (op : BitVec 4) (cnt : Nat) : BitVec 32 :=
  (0 : BitVec 16) ++ BitVec.ofNat 8 cnt ++ (0 : BitVec 4) ++ op

/-- The command that stands for a well-formed instruction. -/
def encode (i : Instr) : Command :=
  { word := commandWord i.opcode i.count, data := i.operand }

/-- A row of the opcode table: a word selects it when `word & mask = value` (30_encoding, introduction). -/
structure OpcodeRow where
  mnemonic : String
  value : BitVec 32
  mask : BitVec 32
deriving DecidableEq, Repr

/-- The opcode table of 30_encoding. -/
def opcodeTable : List OpcodeRow :=
  [ { mnemonic := "NOP",   value := 0x00000000, mask := 0xFFFFFFFF },
    { mnemonic := "INIT",  value := 0x00000001, mask := 0xFFFF00FF },
    { mnemonic := "BLOCK", value := 0x00000002, mask := 0xFFFF00FF },
    { mnemonic := "LAST",  value := 0x00000003, mask := 0xFFFF00FF },
    { mnemonic := "CLEAR", value := 0x00000004, mask := 0xFFFFFFFF } ]

/-- Does a command word select the row? -/
def OpcodeRow.selects (r : OpcodeRow) (w : BitVec 32) : Bool := decide (w &&& r.mask = r.value)

/-- A command's mnemonic, as the table spells it. -/
def Instr.mnemonic : Instr → String
  | .nop => "NOP"
  | .init _ _ => "INIT"
  | .block _ _ => "BLOCK"
  | .last _ _ => "LAST"
  | .clear => "CLEAR"

end Sys2Proof
end

