-- ==== Sys2Proof/Config.lean ====
section
/-! DEFINITION. What stands outside the machine's rules: its label, and the one free value the spec leaves
open. The numeric parameters of the algorithm (00_scope R6) are fixed for this hardware and "no pin, field
or command changes any of them" (R7), so they are no configuration: they stand in Machine/Params.lean. -/

namespace Sys2Proof.Config

/-- 00_scope R3: the spec's own label for this hardware. -/
def name : String := "SIPHASH24-CORE"

/-- 00_scope R3: the revision of the command interface. -/
def commandInterfaceRevision : Nat := 1

/-- FREE VALUE (70_reset R180: "Power-up state before the first reset is unspecified"; 93 U3, U15; log entry 3).
`powerUpBits n r` is what storage element number `r` holds after the `n`-th loss of power. It has no body, so
nothing can be proved about it. -/
opaque powerUpBits : Nat → Nat → BitVec 160

end Sys2Proof.Config
end

