-- ==== Sys2Proof/Machine/Operands.lean ====
section
/-! DEFINITION. Byte lanes and little-endian packing: the operand of each command
(20_memory R42 to R44, 30_encoding R65, 41_decomposer R90 to R92, 40_init R81). -/

namespace Sys2Proof.Machine

/-- Lane `i` of the data operand, `d[8i+7:8i]` (00_scope R8, 20_memory R42). -/
def lane (d : BitVec 128) (i : Nat) : Byte := d.extractLsb' (8 * i) 8

/-- Byte `i` of a word, `w[8i+7:8i]` (20_memory R44). -/
def byteOf (w : Word) (i : Nat) : Byte := w.extractLsb' (8 * i) 8

/-- `zext_64(b) << (8 * i)`: byte `b` at byte position `i` of a word (00_scope R9, R10). -/
def byteAtPos (b : Byte) (i : Nat) : Word := b.setWidth 64 <<< (8 * i)

/-- 41_decomposer R90: little-endian packing, `b0` in bits 7:0. -/
def le64 (b0 b1 b2 b3 b4 b5 b6 b7 : Byte) : Word :=
  byteAtPos b0 0 ||| byteAtPos b1 1 ||| byteAtPos b2 2 ||| byteAtPos b3 3
    ||| byteAtPos b4 4 ||| byteAtPos b5 5 ||| byteAtPos b6 6 ||| byteAtPos b7 7

/-- `k0`: key bytes 0..7 (40_init R81, 30_encoding R65). -/
def keyLow (d : BitVec 128) : Word :=
  le64 (lane d 0) (lane d 1) (lane d 2) (lane d 3) (lane d 4) (lane d 5) (lane d 6) (lane d 7)

/-- `k1`: key bytes 8..15 (40_init R81, 30_encoding R65). -/
def keyHigh (d : BitVec 128) : Word :=
  le64 (lane d 8) (lane d 9) (lane d 10) (lane d 11) (lane d 12) (lane d 13) (lane d 14) (lane d 15)

/-- 41_decomposer R91 `BlockWord`: the chunk on lanes 0..7. -/
def blockWord (d : BitVec 128) : Word :=
  le64 (lane d 0) (lane d 1) (lane d 2) (lane d 3) (lane d 4) (lane d 5) (lane d 6) (lane d 7)

/-- The loop of 41_decomposer R92: the bytes on lanes `0..n-1`, packed. -/
def tailBytes (d : BitVec 128) : Nat → Word
  | 0 => 0
  | n + 1 => tailBytes d n ||| byteAtPos (lane d n) n

/-- 41_decomposer R92 `TailWord`: `n` trailing bytes, and the length byte at bits 63:56. -/
def tailWord (d : BitVec 128) (n : Nat) (len8 : BitVec 8) : Word :=
  tailBytes d n ||| byteAtPos len8 7

end Sys2Proof.Machine
end

