-- ==== Sys2Proof/Machine/State.lean ====
section
/-! DEFINITION. Everything the spec gives the machine, as plain data, and the machine right after reset. -/

namespace Sys2Proof.Machine

/-- The sequencer's phase, a 2-bit register all of whose values are named (10_state R23). -/
inductive Phase where
  /-- 0b00: no key loaded since reset or CLEAR. -/
  | idle
  /-- 0b01: a key is loaded; BLOCK and LAST are accepted. -/
  | absorb
  /-- 0b10: LAST has completed; `tag` holds the digest's tag. -/
  | done
  /-- 0b11: the last failing command put the block here; `err` names the cause. -/
  | error
deriving DecidableEq, Repr

/-- The errors a command can raise (60_exceptions R161; code 0, NONE, is no error). -/
inductive ErrCode where
  /-- INIT with a declared key length other than 16 (R162). -/
  | keyLen
  /-- A byte count out of range (R163). -/
  | cnt
  /-- BLOCK or LAST outside ABSORB (R164). -/
  | seq
  /-- A word the decoder rejects (R165). -/
  | illegal
deriving DecidableEq, Repr

/-- The four 64-bit state words (10_state R20; R32: "a small fixed-size value type"). -/
structure StateWords where
  v0 : Word
  v1 : Word
  v2 : Word
  v3 : Word
deriving DecidableEq, Repr

/-- The architectural registers (10_state, summary table). -/
structure Regs where
  /-- `v0..v3` (R20). -/
  v : StateWords
  /-- `lenb`: message bytes absorbed since INIT, modulo 256 (R21). -/
  lenb : BitVec 8
  /-- `tag`: the last tag computed (R22). -/
  tag : Word
  /-- `phase` (R23). -/
  phase : Phase
  /-- `err`: the 3-bit code of the last command that failed (R24). -/
  err : BitVec 3
deriving DecidableEq, Repr

/-- One thing the host does to the block's input pins (20_memory R41, R56), or one event of the core's clock.
The host's coming actions stand in `State.host`, oldest first. -/
inductive HostAct where
  /-- A rising edge of `clk` at which the core does the next thing it has to do: it resets, accepts, completes or
  idles. Edges at which an executing command goes on are not represented (70_reset R188; log entry 2). -/
  | clock
  /-- Drive `rst` to a level. -/
  | setRst (level : Bool)
  /-- Drive `cmd_valid` to 1 with this `cmd` and `cmd_data`. -/
  | offer (c : Command)
  /-- Drive `cmd_valid` to 0. -/
  | withdraw
  /-- Drive `tag_bsel`. -/
  | select (b : BitVec 3)
  /-- Remove power and put it back (60_exceptions R177). -/
  | losePower
deriving DecidableEq, Repr

/-- The machine. -/
structure State extends Regs where
  /-- Hidden state (10_state R30): the command word and operand latched at acceptance, while the command
  executes; `none` when no command is latched. -/
  latch : Option Command
  /-- The level of the input pin `rst` (20_memory R41). -/
  rst : Bool
  /-- The input pins `cmd_valid`, `cmd`, `cmd_data`: the command the host presents; `none` when `cmd_valid = 0`. Only
  the host drives them: acceptance leaves them as they are (20_memory R41, R55). -/
  offered : Option Command
  /-- The model's own: has the core accepted the presented command, and the host not driven the pins since? Then the
  host "may change `cmd` and `cmd_data`" (20_memory R55, 70_reset R185; log entry 6). -/
  taken : Bool
  /-- The input pin `tag_bsel` (20_memory R41). -/
  tagBsel : BitVec 3
  /-- The model's own: has `rst` been sampled since power came on (70_reset R183, 93 U3)? -/
  live : Bool
  /-- The model's own: how often power was lost; it numbers the free values of `Config.powerUpBits`. -/
  powerLosses : Nat
  /-- The environment: what the host does next, oldest first. -/
  host : List HostAct
deriving DecidableEq, Repr

/-- Why the machine could stop with a fault: never. "The system has no fatal/unrecoverable internal errors beyond
invalid input", and invalid input is recorded in `err` while the machine goes on (60_exceptions R160, R167). -/
inductive Fault where
deriving DecidableEq, Repr

/-- Why a step is refused. No meaning of a command refuses; only the host's own breaches do. -/
inductive Refusal where
  /-- An instruction the model gives no meaning. Nothing raises it: every command has its meaning. Safe. -/
  | notModelled (mnemonic : String)
  /-- Raised by the host's acts `offer` and `withdraw` when they change a presented command before its acceptance:
  "which value is accepted is then unspecified" (70_reset R185; 93 U4, treatment `refuse`). Safe: the model stops
  where the hardware goes on. -/
  | handshakeBroken
  /-- Raised by a clock edge with `rst = 0` before `rst` was sampled since power came on: "Power-up state before the
  first reset is unspecified" (70_reset R180; 93 U3, U15, treatment `refuse`). Safe. -/
  | notReset
deriving DecidableEq, Repr

/-- The registers' reset values (70_reset R181). -/
def Regs.reset : Regs :=
  { v := { v0 := 0, v1 := 0, v2 := 0, v3 := 0 }
    lenb := 0
    tag := 0
    phase := .idle
    err := 0 }

/-- The machine right after reset: the registers as 70_reset R181 says, no command latched, and the host with
nothing presented, `tag_bsel` at 0 and nothing planned (the pins' values are the model's: log entry 4). -/
def State.reset : State :=
  { toRegs := Regs.reset
    latch := none
    rst := false
    offered := none
    taken := false
    tagBsel := 0
    live := true
    powerLosses := 0
    host := [] }

end Sys2Proof.Machine
end

