-- ==== Sys2Proof/Machine/Params.lean ====
section
/-! DEFINITION. The fixed parameters of the algorithm (00_scope R6) and the codes of the named values. -/

namespace Sys2Proof.Machine

/-- 00_scope R6 `KEY_BYTES`. -/
def keyBytes : Nat := 16

/-- Bytes of a full chunk (45_commands R132). -/
def blockBytes : Nat := 8

/-- The most trailing bytes LAST takes (60_exceptions R163). -/
def maxTail : Nat := 7

/-- 00_scope R6 `C_ROUNDS` (43_compression R111). -/
def cRounds : Nat := 2

/-- 00_scope R6 `D_ROUNDS` (44_finalization R120). -/
def dRounds : Nat := 4

/-- 00_scope R6 `FINAL_XOR` (44_finalization R120). -/
def finalXor : Word := 0x00000000000000ff

/-- 40_init R80 `C0`, "somepseu" read big-endian (90_conflicts C2). -/
def C0 : Word := 0x736f6d6570736575

/-- 40_init R80 `C1`, "dorandom". -/
def C1 : Word := 0x646f72616e646f6d

/-- 40_init R80 `C2`, "lygenera". -/
def C2 : Word := 0x6c7967656e657261

/-- 40_init R80 `C3`, "tedbytes". -/
def C3 : Word := 0x7465646279746573

/-- The value the `phase` register holds (10_state R23). -/
def Phase.code : Phase → BitVec 2
  | .idle => 0b00
  | .absorb => 0b01
  | .done => 0b10
  | .error => 0b11

/-- The phase a 2-bit value names (10_state R23). -/
def Phase.ofCode (b : BitVec 2) : Phase :=
  if b = 0b00 then .idle else if b = 0b01 then .absorb else if b = 0b10 then .done else .error

/-- 60_exceptions R161, code 0: NONE. -/
def errNone : BitVec 3 := 0

/-- The code an error writes to `err` (60_exceptions R161). -/
def ErrCode.code : ErrCode → BitVec 3
  | .keyLen => 1
  | .cnt => 2
  | .seq => 3
  | .illegal => 4

end Sys2Proof.Machine
end

