-- ==== Sys2Proof/Machine/Ops.lean ====
section
/-! DEFINITION. The shared operations: the sub-blocks of the data path (40_init, 42_sipround, 43_compression,
44_finalization), the writes the commands make, error entry and exit (60_exceptions R167, R168), and reset. -/

namespace Sys2Proof.Machine

/-! ### The data path -/

/-- 42_sipround R101 (used for `n` in 13, 16, 17, 21, 32). -/
def rotl64 (x : Word) (n : Nat) : Word := x <<< n ||| x >>> (64 - n)

/-- 42_sipround R102, steps 1 to 4. -/
def sipHalfA (v : StateWords) : StateWords :=
  let v0 := v.v0 + v.v1
  let v2 := v.v2 + v.v3
  let v1 := rotl64 v.v1 13
  let v3 := rotl64 v.v3 16
  let v1 := v1 ^^^ v0
  let v3 := v3 ^^^ v2
  let v0 := rotl64 v0 32
  { v0 := v0, v1 := v1, v2 := v2, v3 := v3 }

/-- 42_sipround R102, steps 5 to 8. -/
def sipHalfB (v : StateWords) : StateWords :=
  let v2 := v.v2 + v.v1
  let v0 := v.v0 + v.v3
  let v1 := rotl64 v.v1 17
  let v3 := rotl64 v.v3 21
  let v1 := v1 ^^^ v2
  let v3 := v3 ^^^ v0
  let v2 := rotl64 v2 32
  { v0 := v0, v1 := v1, v2 := v2, v3 := v3 }

/-- 42_sipround R102: the eight steps in order. -/
def sipRound (v : StateWords) : StateWords := sipHalfB (sipHalfA v)

/-- 42_sipround R103 `SipRound^k`. -/
def sipRounds : Nat → StateWords → StateWords
  | 0, v => v
  | k + 1, v => sipRounds k (sipRound v)

/-- 40_init R82 `Init`. -/
def initWords (k0 k1 : Word) : StateWords :=
  { v0 := k0 ^^^ C0, v1 := k1 ^^^ C1, v2 := k0 ^^^ C2, v3 := k1 ^^^ C3 }

/-- 43_compression R110 `Compress`. -/
def compress (v : StateWords) (m : Word) : StateWords :=
  let w := sipRounds cRounds { v with v3 := v.v3 ^^^ m }
  { w with v0 := w.v0 ^^^ m }

/-- 44_finalization R120 `Finalize`. -/
def finalize (v : StateWords) : StateWords :=
  sipRounds dRounds { v with v2 := v.v2 ^^^ finalXor }

/-- 44_finalization R121 `Fold`. -/
def fold (v : StateWords) : Word := v.v0 ^^^ v.v1 ^^^ v.v2 ^^^ v.v3

/-! ### The writes of the commands -/

/-- Error entry, the one shared operation of every error: `err <- c; phase <- ERROR`, and nothing else
(60_exceptions R167). No register is saved and no vector is taken. -/
def State.raise (e : ErrCode) (s : State) : State :=
  { s with err := e.code, phase := .error }

/-- Error exit, the part INIT and CLEAR share: `err <- 0` and the phase they enter (60_exceptions R168). There is
no return command and no saved state to restore. -/
def State.leaveError (p : Phase) (s : State) : State :=
  { s with err := errNone, phase := p }

/-- INIT's writes (45_commands R131). -/
def State.loadKey (data : BitVec 128) (s : State) : State :=
  State.leaveError .absorb { s with v := initWords (keyLow data) (keyHigh data), lenb := 0, tag := 0 }

/-- What BLOCK and LAST share: compress one word and advance the length counter by `n` bytes, modulo 256
(45_commands R132, R133; 10_state R21). -/
def State.absorbWord (m : Word) (n : Nat) (s : State) : State :=
  { s with v := compress s.v m, lenb := s.lenb + BitVec.ofNat 8 n }

/-- The end of LAST: finalize, latch the tag, enter DONE (45_commands R133). The state words keep the finalized
values (92 D32). -/
def State.finish (s : State) : State :=
  { s with v := finalize s.v, tag := fold (finalize s.v), phase := .done }

/-- CLEAR's writes: every register takes its reset value (45_commands R134, 10_state R20 to R24). -/
def State.clearRegs (s : State) : State :=
  State.leaveError .idle { s with v := Regs.reset.v, lenb := 0, tag := 0 }

/-! ### Reset and power -/

/-- The reset event (70_reset R180 to R182): the registers take their reset values, and a command that is
executing is dropped. The host's pins and plans are the host's. -/
def State.resetCore (s : State) : State :=
  { s with toRegs := Regs.reset, latch := none, live := true }

/-- What a storage element may hold when power comes on: free bits (log entry 3). -/
def powerUpRegs (n : Nat) : Regs :=
  { v := { v0 := (Config.powerUpBits n 0).setWidth 64, v1 := (Config.powerUpBits n 1).setWidth 64,
           v2 := (Config.powerUpBits n 2).setWidth 64, v3 := (Config.powerUpBits n 3).setWidth 64 }
    lenb := (Config.powerUpBits n 4).setWidth 8
    tag := (Config.powerUpBits n 5).setWidth 64
    phase := Phase.ofCode ((Config.powerUpBits n 6).setWidth 2)
    err := (Config.powerUpBits n 7).setWidth 3 }

/-- The hidden latch when power comes on: free as well. -/
def powerUpLatch (n : Nat) : Option Command :=
  if (Config.powerUpBits n 8).getLsbD 0 then
    some { word := (Config.powerUpBits n 9).setWidth 32, data := (Config.powerUpBits n 10).setWidth 128 }
  else none

/-- "Removing power loses all state, which the next reset re-establishes" (60_exceptions R177). -/
def State.losePower (s : State) : State :=
  { s with toRegs := powerUpRegs s.powerLosses, latch := powerUpLatch s.powerLosses, live := false
           powerLosses := s.powerLosses + 1 }

end Sys2Proof.Machine
end

