-- ==== Sys2Proof/Machine/Absorb.lean ====
section
/-! DEFINITION. The message commands BLOCK and LAST (45_commands R132, R133). -/

namespace Sys2Proof.Machine

/-- BLOCK (45_commands R132): SEQ, then CNT (60_exceptions R166), else compress the chunk's word. -/
def execBlock (cnt : Nat) (data : BitVec 128) (s : State) : Host.Outcome State Fault Refusal :=
  if s.phase ≠ .absorb then .next (s.raise .seq)
  else if cnt ≠ blockBytes then .next (s.raise .cnt)
  else .next (s.absorbWord (blockWord data) cnt)

/-- LAST (45_commands R133): SEQ, then CNT, else compress the final word, finalize and latch the tag. -/
def execLast (cnt : Nat) (data : BitVec 128) (s : State) : Host.Outcome State Fault Refusal :=
  if s.phase ≠ .absorb then .next (s.raise .seq)
  else if maxTail < cnt then .next (s.raise .cnt)
  else .next (s.absorbWord (tailWord data cnt (s.lenb + BitVec.ofNat 8 cnt)) cnt).finish

end Sys2Proof.Machine
end

