-- ==== Sys2Proof/Machine/Control.lean ====
section
/-! DEFINITION. The commands that take no operand: NOP and CLEAR (45_commands R130, R134). -/

namespace Sys2Proof.Machine

/-- NOP (45_commands R130): no state change, in every phase; it does not clear `err`. -/
def execNop (s : State) : Host.Outcome State Fault Refusal :=
  .next s

/-- CLEAR (45_commands R134): every register to its reset value, in every phase. -/
def execClear (s : State) : Host.Outcome State Fault Refusal :=
  .next s.clearRegs

end Sys2Proof.Machine
end

