-- ==== Sys2Proof/Machine/Key.lean ====
section
/-! DEFINITION. The key-loading command INIT (45_commands R131, 40_init R83). -/

namespace Sys2Proof.Machine

/-- INIT (45_commands R131): the key-length check first, then the writes. Legal in every phase. -/
def execInit (cnt : Nat) (data : BitVec 128) (s : State) : Host.Outcome State Fault Refusal :=
  if cnt = keyBytes then .next (s.loadKey data) else .next (s.raise .keyLen)

end Sys2Proof.Machine
end

