-- ==== Sys2Proof/Machine/Dispatch.lean ====
section
/-! DEFINITION. One arm per command (45_commands R135: "run the rule of d.op"). -/

namespace Sys2Proof.Machine

def exec (i : Instr) (s : State) : Host.Outcome State Fault Refusal :=
  match i with
  | .nop => Sys2Proof.Machine.execNop s
  | .init cnt data => Sys2Proof.Machine.execInit cnt data s
  | .block cnt data => Sys2Proof.Machine.execBlock cnt data s
  | .last cnt data => Sys2Proof.Machine.execLast cnt data s
  | .clear => Sys2Proof.Machine.execClear s

end Sys2Proof.Machine
end

