-- ==== Sys2Proof/Machine/Event.lean ====
section
/-! DEFINITION. What the core does at a clock edge, and what the host does to the pins
(20_memory R55, R56; 70_reset R180 to R185). -/

namespace Sys2Proof.Machine

/-- The common frame of 45_commands R135: decode, raise ILLEGAL on a word that is none, else run the command's
rule. -/
def execute (c : Command) (s : State) : Host.Outcome State Fault Refusal :=
  match decode c with
  | .command i => exec i s
  | .illegal _ => .next (s.raise .illegal)

/-- Completion of the executing command: the latch is empty afterwards and the effects commit together
(20_memory R48, R55). -/
def State.complete (c : Command) (s : State) : Host.Outcome State Fault Refusal :=
  execute c { s with latch := none }

/-- Acceptance: `cmd` and `cmd_data` are latched (20_memory R55). The pins stay as the host drives them: a command still
presented when the core is ready again is accepted again; from now on the host may change it. -/
def State.accept (c : Command) (s : State) : State :=
  { s with latch := some c, taken := true }

/-- An idle core: it accepts what the host presents, else it "holds every register" (60_exceptions R177). -/
def State.idleEdge (s : State) : Host.Outcome State Fault Refusal :=
  match s.offered with
  | some c => .next (s.accept c)
  | none => .next s

/-- One clock edge. Reset comes before everything (70_reset R182); a command presented while another executes waits
(R184); a core that was not reset since power came on is refused (93 U3). -/
def State.clockEdge (s : State) : Host.Outcome State Fault Refusal :=
  if s.rst then .next s.resetCore
  else if !s.live then .refused .notReset
  else
    match s.latch with
    | some c => s.complete c
    | none => s.idleEdge

/-- The host changes the pins `cmd_valid`, `cmd`, `cmd_data`. It must hold a command it presents until the accepting edge
and may change it afterwards (20_memory R55, R56; 70_reset R185; log entry 6). -/
def State.driveCommand (o : Option Command) (s : State) : Host.Outcome State Fault Refusal :=
  if s.offered = none ∨ s.taken = true then .next { s with offered := o, taken := false }
  else .refused .handshakeBroken

/-- The host presents a command; presenting the one that already stands on the pins moves nothing. -/
def State.offerCommand (c : Command) (s : State) : Host.Outcome State Fault Refusal :=
  if s.offered = some c then .next s else s.driveCommand (some c)

/-- The host drives `cmd_valid` to 0; where it is 0 that moves nothing. -/
def State.withdrawCommand (s : State) : Host.Outcome State Fault Refusal :=
  if s.offered = none then .next s else s.driveCommand none

/-- One act of the host, already taken from its plan. -/
def State.hostAct (a : HostAct) (s : State) : Host.Outcome State Fault Refusal :=
  match a with
  | .clock => s.clockEdge
  | .setRst level => .next { s with rst := level }
  | .offer c => s.offerCommand c
  | .withdraw => s.withdrawCommand
  | .select b => .next { s with tagBsel := b }
  | .losePower => .next s.losePower

/-- One event: the next act of the host's plan, or, when the plan is empty, a clock edge with the pins as they
stand. -/
def State.event (s : State) : Host.Outcome State Fault Refusal :=
  match s.host with
  | [] => s.clockEdge
  | a :: plan => State.hostAct a { s with host := plan }

end Sys2Proof.Machine
end

