-- ==== Sys2Proof/Machine/Step.lean ====
section
/-! DEFINITION. One step of the machine, and the placing of a command where the next step runs it. -/

namespace Sys2Proof.Machine

/-- One step: one event of the host and core (Machine/Event.lean). -/
def step (s : State) : Host.Outcome State Fault Refusal := s.event

/-- `s` with the command in the latch, as right after its acceptance, and a clock edge as the next event, so that
the very next step completes exactly this command (log entry 1). -/
def State.withFetchWord (s : State) (nbits w : Nat) : State :=
  { s with latch := some (commandOfBits nbits w), rst := false, live := true, host := .clock :: s.host }

end Sys2Proof.Machine
end

