-- ==== Sys2Proof/Machine/Flags.lean ====
section
/-! DEFINITION. The output ports that report the state: `cmd_ready`, the STATUS word and its flags
(10_state R26, R27; 20_memory R41), and the tag output MUX (46_tag_output R150, R151). No flag records a carry
(10_state R27), so no operation of the data path computes one. -/

namespace Sys2Proof.Machine

/-- STATUS.TAG_VALID (10_state R26). -/
def State.tagValid (s : State) : Bool := decide (s.phase = .done)

/-- STATUS.BUSY: a command is executing; 0 while `rst = 1` (10_state R26, log entry 5). -/
def State.busy (s : State) : Bool := s.latch.isSome && !s.rst

/-- `cmd_ready`: 0 while a command executes and during reset (20_memory R41, 70_reset R180). -/
def State.cmdReady (s : State) : Bool := s.latch.isNone && !s.rst

/-- 10_state R26: LENB[15:8], 0[7], ERR[6:4], BUSY[3], TAG_VALID[2], PHASE[1:0]. -/
def State.status (s : State) : BitVec 16 :=
  s.lenb ++ (0 : BitVec 1) ++ s.err ++ BitVec.ofBool s.busy ++ BitVec.ofBool s.tagValid ++ s.phase.code

/-- 46_tag_output R150. -/
def State.tagOut (s : State) : Word := if s.phase = .done then s.tag else 0

/-- 46_tag_output R151: `tag_out[8*tag_bsel+7 : 8*tag_bsel]`. -/
def State.tagByte (s : State) : Byte := s.tagOut.extractLsb' (8 * s.tagBsel.toNat) 8

end Sys2Proof.Machine
end

