-- ==== Sys2Proof/Machine/Reference.lean ====
section
/-! DEFINITION. The source's whole-message functions, as the spec states them: the decomposition of a message
(41_decomposer R93), the digest function (44_finalization R122), the digest bytes and their hex rendering
(46_tag_output R152 to R154); the assembly syntax a host writes commands in (30_encoding R68, R69); and the error a
command word reports (60_exceptions R166), read off its bits. No command's meaning uses
anything of this file: it is what the commands are compared with. -/

namespace Sys2Proof.Machine

/-! ### The digest function -/

/-- Byte `i` of a byte string (byte 0 first, 00_scope R13). -/
def byteAt (bytes : List Byte) (i : Nat) : Byte := bytes.getD i 0

/-- `LE64(B[i], ..., B[i+7])` of a byte string. -/
def le64At (bytes : List Byte) (i : Nat) : Word :=
  le64 (byteAt bytes i) (byteAt bytes (i + 1)) (byteAt bytes (i + 2)) (byteAt bytes (i + 3))
    (byteAt bytes (i + 4)) (byteAt bytes (i + 5)) (byteAt bytes (i + 6)) (byteAt bytes (i + 7))

/-- Bytes packed little-endian from the low end of a word (the last line of 41_decomposer R93). -/
def lePack : List Byte → Word
  | [] => 0
  | b :: bs => b.setWidth 64 ||| lePack bs <<< 8

/-- The final word of 41_decomposer R93: the trailing bytes in the low bytes, `L mod 256` at bits 63:56. -/
def finalWord (msg : List Byte) : Word :=
  lePack (msg.drop (8 * (msg.length / 8))) ||| BitVec.ofNat 64 (msg.length % 256) <<< 56

/-- 41_decomposer R93 `Words(M)`. -/
def words (msg : List Byte) : List Word :=
  (List.range (msg.length / 8)).map (fun j => le64At msg (8 * j)) ++ [finalWord msg]

/-- 44_finalization R122 `SipHash24(K, M)`. -/
def sipHash24 (key msg : List Byte) : Word :=
  fold (finalize ((words msg).foldl compress (initWords (le64At key 0) (le64At key 8))))

/-! ### The digest and its hex rendering, which the host makes (46_tag_output) -/

/-- 46_tag_output R152: the 8 digest bytes, the least significant first. -/
def digestBytes (tag : Word) : List Byte := (List.range 8).map (byteOf tag)

/-- The lowercase hex digits in order (46_tag_output R153 `nibble`). -/
def hexDigits : List Char :=
  ['0', '1', '2', '3', '4', '5', '6', '7', '8', '9', 'a', 'b', 'c', 'd', 'e', 'f']

/-- 46_tag_output R153 `nibble`. -/
def nibbleChar (x : BitVec 4) : Char := hexDigits.getD x.toNat '0'

/-- 46_tag_output R153 `hex2`: the high nibble first. -/
def hex2 (b : Byte) : List Char := [nibbleChar (b.extractLsb' 4 4), nibbleChar (b.extractLsb' 0 4)]

/-- 46_tag_output R153 `hexdigest`. -/
def hexDigest (tag : Word) : List Char := (digestBytes tag).flatMap hex2

/-- The value of a hex digit. -/
def nibbleValue (c : Char) : BitVec 4 := BitVec.ofNat 4 (hexDigits.idxOf c)

/-- 46_tag_output R154 `byte`: the byte whose two hex digits are these. -/
def hexByte (h : List Char) (i : Nat) : Byte :=
  nibbleValue (h.getD (2 * i) '0') ++ nibbleValue (h.getD (2 * i + 1) '0')

/-- 46_tag_output R154: the tag a reader recovers from a hex digest. -/
def tagOfHex (h : List Char) : Word :=
  le64 (hexByte h 0) (hexByte h 1) (hexByte h 2) (hexByte h 3)
    (hexByte h 4) (hexByte h 5) (hexByte h 6) (hexByte h 7)

/-! ### The host's assembly (30_encoding R68, R69) -/

/-- A data operand with the bytes on lanes 0, 1, ... in order (20_memory R42). The lanes after them hold whatever
`rest` holds: a host may put anything there (30_encoding R65). -/
def onLanes : List Byte → BitVec 128 → BitVec 128
  | [], rest => rest
  | b :: bs, rest => b.setWidth 128 ||| onLanes bs rest <<< 8

/-- `INIT.n key` (R68); `INIT key` is `INIT.16 key`. -/
def asmInit (n : Nat) (key : List Byte) (rest : BitVec 128) : Command :=
  { word := BitVec.ofNat 32 (n * 256 + 1), data := onLanes key rest }

/-- `BLOCK chunk` (R68). -/
def asmBlock (chunk : List Byte) (rest : BitVec 128) : Command :=
  { word := 0x00000802, data := onLanes chunk rest }

/-- `LAST.n tail` (R68). -/
def asmLast (tail : List Byte) (rest : BitVec 128) : Command :=
  { word := BitVec.ofNat 32 (tail.length * 256 + 3), data := onLanes tail rest }

/-- `NOP` (R68). -/
def asmNop (data : BitVec 128) : Command := { word := 0x00000000, data := data }

/-- `CLEAR` (R68). -/
def asmClear (data : BitVec 128) : Command := { word := 0x00000004, data := data }

/-- 30_encoding R69 `DIGEST key, M`: INIT, one BLOCK for each full chunk in message order, and LAST with the
trailing bytes. `junk` is what the ignored lanes of each command hold. -/
def digestCommands (key msg : List Byte) (junk : Nat → BitVec 128) : List Command :=
  asmInit 16 key (junk 0) ::
    ((List.range (msg.length / 8)).map (fun j => asmBlock ((msg.drop (8 * j)).take 8) (junk (j + 1)))
      ++ [asmLast (msg.drop (8 * (msg.length / 8))) (junk (msg.length / 8 + 1))])

/-- 30_encoding R69 `CLEAR_AND_DIGEST key, M`. -/
def clearAndDigestCommands (key msg : List Byte) (junk : Nat → BitVec 128) : List Command :=
  asmClear (junk (msg.length / 8 + 2)) :: digestCommands key msg junk

/-- A host that issues commands one after another: it presents each until its acceptance, then drives `cmd_valid` to 0,
and waits until the command has completed (20_memory R55, R56). -/
def issue (cs : List Command) : List HostAct :=
  cs.flatMap (fun c => [.offer c, .clock, .withdraw, .clock])

/-! ### Which error a command word reports, on its raw bits (60_exceptions R161 to R166) -/

/-- `op` as a number: bits 3:0 (30_encoding R60). -/
def wordOp (w : BitVec 32) : Nat := w.toNat % 16

/-- `cnt` as a number: bits 15:8 (30_encoding R60). -/
def wordCnt (w : BitVec 32) : Nat := w.toNat / 256 % 256

/-- Are all reserved bits, 7:4 and 31:16, zero (30_encoding R63)? -/
def wordReservedZero (w : BitVec 32) : Bool := decide (w.toNat / 16 % 16 = 0 ∧ w.toNat / 65536 = 0)

/-- 30_encoding R66: the words that are illegal. -/
def wordIllegal (w : BitVec 32) : Bool :=
  !wordReservedZero w || decide (5 ≤ wordOp w ∨ ((wordOp w = 0 ∨ wordOp w = 4) ∧ wordCnt w ≠ 0))

/-- 60_exceptions R166: the first error, in the rule's order, that a command word meets in a phase. -/
def firstError (w : BitVec 32) (p : Phase) : Option ErrCode :=
  if wordIllegal w then some .illegal
  else if (wordOp w = 2 ∨ wordOp w = 3) ∧ p ≠ .absorb then some .seq
  else if wordOp w = 1 ∧ wordCnt w ≠ 16 then some .keyLen
  else if (wordOp w = 2 ∧ wordCnt w ≠ 8) ∨ (wordOp w = 3 ∧ 7 < wordCnt w) then some .cnt
  else none

end Sys2Proof.Machine
end

