-- ==== Sys2Proof/Safety.lean ====
section
/-! DEFINITION. What counts as a good state, what an outsider sees, and when two states look the same: the
terms the statements use. -/

namespace Sys2Proof.Machine

/-- 10_state R25, the spec's two invariants, of a core that was reset since power came on. -/
def Coherent (s : State) : Prop :=
  s.live = true →
    (s.err ≠ 0 ↔ s.phase = .error) ∧ (s.phase = .done → s.tag = fold s.v)

/-- What each phase implies of the registers, beyond R25: IDLE is the reset state (R23, R134), ABSORB holds no tag and
has absorbed whole chunks (R131, R132), and `err` never holds a reserved code (R161). -/
def PhaseShape (s : State) : Prop :=
  s.live = true →
    (s.phase = .idle → s.toRegs = Regs.reset) ∧
    (s.phase = .absorb → s.tag = 0 ∧ s.lenb.toNat % 8 = 0) ∧
    s.err.toNat ≤ 4

/-- A core that was reset and is ready, with no command presented. -/
abbrev Ready (s : State) : Prop :=
  s.live = true ∧ s.rst = false ∧ s.latch = none ∧ s.offered = none

/-- A core that is executing the command `c`. -/
abbrev Executing (c : Command) (s : State) : Prop :=
  s.live = true ∧ s.rst = false ∧ s.latch = some c

/-- The next event is a clock edge: the host's plan says so, or is empty. -/
abbrev ClockNext (s : State) : Prop :=
  s.host = [] ∨ s.host.head? = some .clock

/-- Everything the output ports show (20_memory R41; 70_reset R189: what a run shows). -/
structure Outputs where
  cmdReady : Bool
  status : BitVec 16
  tagOut : Word
  tagByte : Byte
deriving DecidableEq, Repr

/-- The output ports of a state. -/
def State.outputs (s : State) : Outputs :=
  { cmdReady := s.cmdReady, status := s.status, tagOut := s.tagOut, tagByte := s.tagByte }

/-- Two states that differ at most in what no port ever shows: the state words outside ABSORB, and the tag register
outside DONE (10_state R20, R22). -/
def SameButHidden (s t : State) : Prop :=
  s.lenb = t.lenb ∧ s.phase = t.phase ∧ s.err = t.err ∧ s.latch = t.latch ∧ s.rst = t.rst ∧
  s.offered = t.offered ∧ s.taken = t.taken ∧ s.tagBsel = t.tagBsel ∧ s.live = t.live ∧ s.powerLosses = t.powerLosses ∧
  s.host = t.host ∧ (s.phase = .absorb → s.v = t.v) ∧ (s.phase = .done → s.tag = t.tag)

/-- Two outcomes that agree: both go on, to related states, or both stop for the same reason. -/
def OutcomesAgree (rel : State → State → Prop) (a b : Host.Outcome State Fault Refusal) : Prop :=
  match a, b with
  | .next s, .next t => rel s t
  | .fault f, .fault g => f = g
  | .refused r, .refused q => r = q
  | _, _ => False

/-- The commands run one after another, each on the state the one before it committed (20_memory R52). -/
def execAll : List Instr → State → Host.Outcome State Fault Refusal
  | [], s => .next s
  | i :: is, s =>
    match exec i s with
    | .next t => execAll is t
    | .fault f => .fault f
    | .refused r => .refused r

end Sys2Proof.Machine
end

