-- ==== Sys2Proof/Certificates/Slice0/Obligations.lean ====
section
/-! DEFINITION. The statements about this model, one def Obligations.<Name> each; OBLIGATIONS.json lists them.
In all of them `s.host.tail` is the host's plan without the event that happens. -/

open Sys2Proof Sys2Proof.Machine

/-! ### Decoding and encoding -/

/-- 30_encoding R60 to R62: every well-formed command, with every count and every operand, decodes from its own
encoding. -/
def Obligations.DecodeOfEncodeIsIdentity : Prop :=
  ∀ i : Instr, i.wellFormed = true → decode (encode i) = .command i

/-- The other direction: a word the decoder accepts is the encoding of what it decodes to, and the operand is
carried whole unless the command has none. -/
def Obligations.EncodeOfDecodeIsIdentity : Prop :=
  ∀ (c : Command) (i : Instr), decode c = .command i →
    i.wellFormed = true ∧ (encode i).word = c.word ∧
    ((encode i).data = c.data ∨ i = .nop ∨ i = .clear)

/-- 30_encoding: "A word selects a row when cmd & mask = match"; the decoder gives a row's command exactly to the words
that select the row. -/
def Obligations.DecoderFollowsTheOpcodeTable : Prop :=
  ∀ (c : Command) (m : String),
    (∃ i, decode c = .command i ∧ i.mnemonic = m) ↔
    ∃ r ∈ opcodeTable, r.mnemonic = m ∧ r.selects c.word = true

/-- 30_encoding R66, on the word as a number: which words are ILLEGAL, and which command each other word is. -/
def Obligations.DecoderChecksReservedBitsOpcodeAndCount : Prop :=
  ∀ c : Command,
    let op := c.word.toNat % 16
    let rsv0 := c.word.toNat / 16 % 16
    let cnt := c.word.toNat / 256 % 256
    let rsv1 := c.word.toNat / 65536
    if rsv0 ≠ 0 ∨ rsv1 ≠ 0 ∨ 5 ≤ op ∨ ((op = 0 ∨ op = 4) ∧ cnt ≠ 0) then ∃ e, decode c = .illegal e
    else if op = 0 then decode c = .command .nop
    else if op = 1 then decode c = .command (.init cnt c.data)
    else if op = 2 then decode c = .command (.block cnt c.data)
    else if op = 3 then decode c = .command (.last cnt c.data)
    else decode c = .command .clear

/-- Words written out from 30_encoding R61 and R64, with any data operand. The spec records one code, ILLEGAL, for the last
three; the reasons their clauses name are the model's own choice (log entry 9). -/
def Obligations.WrittenOutWordsDecode : Prop :=
  ∀ d : BitVec 128,
    decode { word := 0x00000000, data := d } = .command .nop ∧
    decode { word := 0x00001001, data := d } = .command (.init 16 d) ∧
    decode { word := 0x00000f01, data := d } = .command (.init 15 d) ∧
    decode { word := 0x00000802, data := d } = .command (.block 8 d) ∧
    decode { word := 0x00000003, data := d } = .command (.last 0 d) ∧
    decode { word := 0x00000703, data := d } = .command (.last 7 d) ∧
    decode { word := 0x00000004, data := d } = .command .clear ∧
    decode { word := 0x00000005, data := d } = .illegal .reservedOpcode ∧
    decode { word := 0x00001011, data := d } = .illegal .reservedField ∧
    decode { word := 0x00000104, data := d } = .illegal .countNotZero

/-! ### Operands -/

/-- 20_memory R43: every conversion between bytes and words is little-endian (key halves, message words with a full chunk
or with trailing bytes, digest); BLOCK's word is `cmd_data[63:0]`, INIT's key halves are `cmd_data[63:0]` and
`cmd_data[127:64]`. -/
def Obligations.BytesAndWordsAreLittleEndian : Prop :=
  ∀ (d : BitVec 128) (tag : Word),
    (∀ i < 8, byteOf (keyLow d) i = lane d i ∧ byteOf (keyHigh d) i = lane d (8 + i) ∧
      byteOf (blockWord d) i = lane d i ∧ (digestBytes tag)[i]? = some (tag.extractLsb' (8 * i) 8)) ∧
    (∀ (n : Nat) (len8 : BitVec 8), n ≤ 7 → ∀ i < n, byteOf (tailWord d n len8) i = lane d i) ∧
    blockWord d = d.extractLsb' 0 64 ∧ keyLow d = d.extractLsb' 0 64 ∧ keyHigh d = d.extractLsb' 64 64

/-- 41_decomposer R92: the final word's bytes are the trailing bytes, then zeros, then the length byte. -/
def Obligations.TailWordHoldsTailAndLengthByte : Prop :=
  ∀ (d : BitVec 128) (n : Nat) (len8 : BitVec 8), n ≤ 7 →
    (∀ i < n, byteOf (tailWord d n len8) i = lane d i) ∧
    (∀ i, n ≤ i → i < 7 → byteOf (tailWord d n len8) i = 0) ∧
    byteOf (tailWord d n len8) 7 = len8

/-- 30_encoding R65: a lane that a command does not use has no effect. -/
def Obligations.IgnoredLanesHaveNoEffect : Prop :=
  ∀ (s : State) (d e : BitVec 128),
    (∀ cnt, (∀ i < 8, lane d i = lane e i) → exec (.block cnt d) s = exec (.block cnt e) s) ∧
    (∀ cnt, (∀ i < cnt, lane d i = lane e i) → exec (.last cnt d) s = exec (.last cnt e) s) ∧
    execute { word := 0x00000000, data := d } s = execute { word := 0x00000000, data := e } s ∧
    execute { word := 0x00000004, data := d } s = execute { word := 0x00000004, data := e } s

/-! ### The data path -/

/-- 42_sipround R101: bit `i` of the result is bit `(i - n) mod 64` of `x`, and a rotation by 32 swaps the halves. -/
def Obligations.RotateLeftMovesEachBit : Prop :=
  ∀ (x : Word) (n i : Nat), 1 ≤ n → n ≤ 63 → i < 64 →
    (rotl64 x n).getLsbD i = x.getLsbD ((i + 64 - n) % 64) ∧
    rotl64 x 32 = x.extractLsb' 0 32 ++ x.extractLsb' 32 32

/-- 42_sipround R102: the eight steps in order, with the library's rotation. -/
def Obligations.SipRoundIsTheEightSteps : Prop :=
  ∀ v0 v1 v2 v3 : Word,
    let a0 := v0 + v1
    let a2 := v2 + v3
    let a1 := v1.rotateLeft 13 ^^^ a0
    let a3 := v3.rotateLeft 16 ^^^ a2
    let b0 := a0.rotateLeft 32
    let c2 := a2 + a1
    let c0 := b0 + a3
    let c1 := a1.rotateLeft 17 ^^^ c2
    let c3 := a3.rotateLeft 21 ^^^ c0
    sipRound { v0 := v0, v1 := v1, v2 := v2, v3 := v3 } =
      { v0 := c0, v1 := c1, v2 := c2.rotateLeft 32, v3 := c3 }

/-- 43_compression R110, 44_finalization R120 and R121: where the word, the constant 0xff and the rounds go. -/
def Obligations.CompressFinalizeAndFold : Prop :=
  ∀ (v0 v1 v2 v3 m : Word),
    (let w := sipRound (sipRound { v0 := v0, v1 := v1, v2 := v2, v3 := v3 ^^^ m })
     compress { v0 := v0, v1 := v1, v2 := v2, v3 := v3 } m =
       { v0 := w.v0 ^^^ m, v1 := w.v1, v2 := w.v2, v3 := w.v3 }) ∧
    finalize { v0 := v0, v1 := v1, v2 := v2, v3 := v3 } =
      sipRound (sipRound (sipRound (sipRound { v0 := v0, v1 := v1, v2 := v2 ^^^ 0xff, v3 := v3 }))) ∧
    fold { v0 := v0, v1 := v1, v2 := v2, v3 := v3 } = v0 ^^^ v1 ^^^ v2 ^^^ v3

/-! ### The commands: results, with everything else unchanged -/

/-- 45_commands, NOP: it completes in every state and changes nothing. -/
def Obligations.NopCompletesAndChangesNothing : Prop :=
  ∀ s : State, exec .nop s = .next s

/-- 40_init R80, R82 and 45_commands, INIT: with a declared length of 16, INIT completes in every state; it writes the
state words as `Init` says, and `lenb`, `tag`, `err` and `phase`; nothing else changes. -/
def Obligations.InitLoadsTheKey : Prop :=
  ∀ (s : State) (data : BitVec 128),
    let k0 := data.extractLsb' 0 64
    let k1 := data.extractLsb' 64 64
    exec (.init 16 data) s = .next { s with
      v := { v0 := k0 ^^^ 0x736f6d6570736575, v1 := k1 ^^^ 0x646f72616e646f6d,
             v2 := k0 ^^^ 0x6c7967656e657261, v3 := k1 ^^^ 0x7465646279746573 }
      lenb := 0
      tag := 0
      err := 0
      phase := .absorb }

/-- 40_init R83, R84 and 60_exceptions R162: any other declared length is KEYLEN, and no state word is written. -/
def Obligations.InitRejectsOtherKeyLengths : Prop :=
  ∀ (s : State) (cnt : Nat) (data : BitVec 128), cnt ≠ 16 →
    exec (.init cnt data) s = .next { s with err := 1, phase := .error }

/-- 45_commands, BLOCK: in ABSORB, with a count of 8, BLOCK completes; it compresses `cmd_data[63:0]` and adds 8 to
`lenb`; nothing else changes. -/
def Obligations.BlockCompressesTheChunk : Prop :=
  ∀ (s : State) (data : BitVec 128), s.phase = .absorb →
    exec (.block 8 data) s = .next { s with
      v := compress s.v (data.extractLsb' 0 64)
      lenb := s.lenb + 8 }

/-- 45_commands, LAST: in ABSORB, with a count of 0 to 7, LAST completes; the final word, as a number, is the `n`
trailing bytes plus the length byte at bit 56; it is compressed, the state finalized and folded into the tag. -/
def Obligations.LastProducesTheTag : Prop :=
  ∀ (s : State) (n : Nat) (data : BitVec 128), s.phase = .absorb → n ≤ 7 →
    let len8 := (s.lenb.toNat + n) % 256
    let m := BitVec.ofNat 64 (data.toNat % 2 ^ (8 * n) + len8 * 2 ^ 56)
    let f := finalize (compress s.v m)
    exec (.last n data) s = .next { s with
      v := f
      tag := f.v0 ^^^ f.v1 ^^^ f.v2 ^^^ f.v3
      lenb := BitVec.ofNat 8 len8
      phase := .done }

/-- 45_commands, CLEAR: it completes in every state, and every register takes its reset value. -/
def Obligations.ClearRestoresTheResetValues : Prop :=
  ∀ s : State, exec .clear s = .next { s with
    v := { v0 := 0, v1 := 0, v2 := 0, v3 := 0 }
    lenb := 0
    tag := 0
    err := 0
    phase := .idle }

/-- 43_compression R112 and 20_memory R52: any number of BLOCKs, each on the state the one before it committed,
compress their words in acceptance order; `lenb` counts modulo 256. -/
def Obligations.BlocksFoldInAcceptanceOrder : Prop :=
  ∀ (s : State) (ds : List (BitVec 128)), s.phase = .absorb →
    execAll (ds.map (Instr.block 8)) s = .next { s with
      v := (ds.map (fun d => d.extractLsb' 0 64)).foldl compress s.v
      lenb := BitVec.ofNat 8 (s.lenb.toNat + 8 * ds.length) }

/-! ### Errors -/

/-- 60_exceptions R163: in ABSORB, BLOCK with a count other than 8 and LAST with one over 7 raise CNT. -/
def Obligations.ByteCountsOutOfRangeRaiseCnt : Prop :=
  ∀ (s : State) (cnt : Nat) (data : BitVec 128), s.phase = .absorb →
    (cnt ≠ 8 → exec (.block cnt data) s = .next { s with err := 2, phase := .error }) ∧
    (7 < cnt → exec (.last cnt data) s = .next { s with err := 2, phase := .error })

/-- 60_exceptions R164: outside ABSORB, BLOCK and LAST raise SEQ whatever their count; no other command does. -/
def Obligations.OnlyBlockAndLastRaiseSeq : Prop :=
  ∀ (s : State) (cnt : Nat) (data : BitVec 128),
    (s.phase ≠ .absorb →
      exec (.block cnt data) s = .next { s with err := 3, phase := .error } ∧
      exec (.last cnt data) s = .next { s with err := 3, phase := .error }) ∧
    exec .nop s = .next s ∧
    (∃ t, exec (.init cnt data) s = .next t ∧ t.err ≠ 3) ∧
    (∃ t, exec .clear s = .next t ∧ t.err ≠ 3)

/-- 60_exceptions R165: a word that 30_encoding R66 decodes as illegal raises ILLEGAL, in every phase, and only `err`
and `phase` change. -/
def Obligations.IllegalWordsRaiseIllegalInEveryPhase : Prop :=
  ∀ (s : State) (c : Command), Executing c s → ClockNext s →
    (c.word.toNat / 16 % 16 ≠ 0 ∨ c.word.toNat / 65536 ≠ 0 ∨ 5 ≤ c.word.toNat % 16 ∨
      ((c.word.toNat % 16 = 0 ∨ c.word.toNat % 16 = 4) ∧ c.word.toNat / 256 % 256 ≠ 0)) →
    step s = .next { s with err := 4, phase := .error, latch := none, host := s.host.tail }

/-- 60_exceptions R166 and R169: a command that meets several error conditions reports the first in the order
ILLEGAL, SEQ, then KEYLEN or CNT; in every phase, ERROR too, the code overwrites `err` and the phase is ERROR; a command
that meets none raises none; reset precedes every error. -/
def Obligations.FirstErrorInPriorityOrderIsReported : Prop :=
  (∀ (s : State) (c : Command), Executing c s → ClockNext s →
    ∃ t, step s = .next t ∧
      match firstError c.word s.phase with
      | some e => t.err = e.code ∧ t.phase = .error
      | none => t.phase ≠ .error ∨ (c.word = 0 ∧ t.toRegs = s.toRegs)) ∧
  (∀ (s : State) (c : Command), s.rst = true → s.latch = some c → ClockNext s →
    ∃ t, step s = .next t ∧ t.err = 0 ∧ t.phase = .idle)

/-- 60_exceptions R160 and R167: a failing command commits `err <- c` and `phase <- ERROR` and nothing else (the state
`t` is `s` but for these two, the emptied latch and the event taken from the plan); the tag output reads 0 and STATUS
shows ERR != 0. -/
def Obligations.FailingCommandsWriteOnlyErrAndPhase : Prop :=
  ∀ (s : State) (c : Command) (e : ErrCode), Executing c s → ClockNext s → firstError c.word s.phase = some e →
    ∃ t, step s = .next t ∧
      t = { s with err := e.code, phase := .error, latch := none, host := s.host.tail } ∧
      t.tagOut = 0 ∧ t.tagByte = 0 ∧ t.status.extractLsb' 4 3 = e.code ∧ e.code ≠ 0

/-- 60_exceptions R168: what happens in ERROR, and that only a successful INIT, CLEAR or reset leaves it while power stays
on (93 U15: without power the rules do not hold; the model's loss of power is log entry 3). -/
def Obligations.ErrorIsLeftOnlyByInitClearOrReset : Prop :=
  (∀ (s t : State), s.live = true → (∀ plan, s.host ≠ .losePower :: plan) → s.phase = .error →
    step s = .next t → t.phase ≠ .error →
    (∃ c, Executing c s ∧ ClockNext s ∧ c.word = 0x00001001 ∧ t.phase = .absorb ∧ t.err = 0) ∨
    (∃ c, Executing c s ∧ ClockNext s ∧ c.word = 0x00000004 ∧ t.phase = .idle ∧ t.err = 0) ∨
    (s.rst = true ∧ ClockNext s ∧ t.toRegs = Regs.reset)) ∧
  (∀ (s : State) (cnt : Nat) (data : BitVec 128), s.phase = .error →
    exec .nop s = .next s ∧
    exec (.block cnt data) s = .next { s with err := 3 } ∧
    exec (.last cnt data) s = .next { s with err := 3 } ∧
    (cnt ≠ 16 → exec (.init cnt data) s = .next { s with err := 1 }) ∧
    (∀ c, wordIllegal c.word = true → execute c s = .next { s with err := 4 }))

/-- 30_encoding R64: in ABSORB exactly 12 words succeed, whatever the operand; in IDLE, DONE and ERROR only NOP, INIT
and CLEAR do; every reserved opcode raises ILLEGAL. -/
def Obligations.ExactlyTwelveWordsSucceed : Prop :=
  ∀ (s : State) (c : Command), Executing c s → ClockNext s →
    ∃ t, step s = .next t ∧
      (s.phase = .absorb → (t.phase ≠ .error ↔
        c.word ∈ [0x00000000, 0x00001001, 0x00000802, 0x00000003, 0x00000103, 0x00000203, 0x00000303,
          0x00000403, 0x00000503, 0x00000603, 0x00000703, 0x00000004])) ∧
      (s.phase = .idle ∨ s.phase = .done → (t.phase ≠ .error ↔
        c.word ∈ [0x00000000, 0x00001001, 0x00000004])) ∧
      (s.phase = .error → (t.phase ≠ .error ↔ c.word ∈ [0x00001001, 0x00000004]) ∧
        (c.word = 0 → t.toRegs = s.toRegs) ∧
        (c.word ∉ [0x00000000, 0x00001001, 0x00000004] →
          ∃ e : ErrCode, t.toRegs = { s.toRegs with err := e.code })) ∧
      (5 ≤ c.word.toNat % 16 → t.err = 4 ∧ t.phase = .error)

/-! ### The registers, over all commands -/

/-- 10_state R23: the phase after every command, and after reset, and the values the register holds. -/
def Obligations.PhaseAfterEveryCommand : Prop :=
  (∀ (s : State) (c : Command), Executing c s → ClockNext s →
    ∃ t, step s = .next t ∧
      t.phase =
        (if (firstError c.word s.phase).isSome then .error
         else if wordOp c.word = 1 then .absorb
         else if wordOp c.word = 3 then .done
         else if wordOp c.word = 4 then .idle
         else s.phase)) ∧
  (∀ s : State, s.rst = true → ClockNext s → ∃ t, step s = .next t ∧ t.phase = .idle) ∧
  Phase.idle.code = 0b00 ∧ Phase.absorb.code = 0b01 ∧ Phase.done.code = 0b10 ∧ Phase.error.code = 0b11

/-- 10_state R21: `lenb` after every command, on STATUS bits 15:8, and after reset. -/
def Obligations.LengthCounterAfterEveryCommand : Prop :=
  (∀ (s : State) (c : Command), Executing c s → ClockNext s →
    ∃ t, step s = .next t ∧ t.status.extractLsb' 8 8 = t.lenb ∧
      t.lenb.toNat =
        (if (firstError c.word s.phase).isSome then s.lenb.toNat
         else if wordOp c.word = 1 ∨ wordOp c.word = 4 then 0
         else if wordOp c.word = 2 then (s.lenb.toNat + 8) % 256
         else if wordOp c.word = 3 then (s.lenb.toNat + wordCnt c.word) % 256
         else s.lenb.toNat)) ∧
  (∀ s : State, s.rst = true → ClockNext s → ∃ t, step s = .next t ∧ t.lenb = 0)

/-- 10_state R22: the tag register after every command, what shows it, and after reset. -/
def Obligations.TagRegisterAfterEveryCommand : Prop :=
  (∀ (s : State) (c : Command), Executing c s → ClockNext s →
    ∃ t, step s = .next t ∧ t.tagOut = (if t.phase = .done then t.tag else 0) ∧
      t.tag =
        (if (firstError c.word s.phase).isSome then s.tag
         else if wordOp c.word = 1 ∨ wordOp c.word = 4 then 0
         else if wordOp c.word = 3 then t.v.v0 ^^^ t.v.v1 ^^^ t.v.v2 ^^^ t.v.v3
         else s.tag)) ∧
  (∀ s : State, s.rst = true → ClockNext s → ∃ t, step s = .next t ∧ t.tag = 0)

/-- 10_state R24: `err` after every command, and after reset. -/
def Obligations.ErrorRegisterAfterEveryCommand : Prop :=
  (∀ (s : State) (c : Command), Executing c s → ClockNext s →
    ∃ t, step s = .next t ∧
      t.err =
        (match firstError c.word s.phase with
         | some e => e.code
         | none => if wordOp c.word = 1 ∨ wordOp c.word = 4 then 0 else s.err)) ∧
  (∀ s : State, s.rst = true → ClockNext s → ∃ t, step s = .next t ∧ t.err = 0)

/-! ### Outputs -/

/-- 10_state R26: every field of STATUS. -/
def Obligations.StatusWordFields : Prop :=
  (∀ s : State,
    s.status.extractLsb' 0 2 =
      (match s.phase with
       | .idle => 0b00
       | .absorb => 0b01
       | .done => 0b10
       | .error => 0b11) ∧
    (s.status.getLsbD 2 = true ↔ s.phase = .done) ∧
    (s.status.getLsbD 3 = true ↔ (∃ c, s.latch = some c) ∧ s.rst = false) ∧
    s.status.extractLsb' 4 3 = s.err ∧
    s.status.getLsbD 7 = false ∧
    s.status.extractLsb' 8 8 = s.lenb) ∧
  (∀ s : State, s.rst = true → ClockNext s → ∃ t, step s = .next t ∧ t.status = 0x0000)

/-- 46_tag_output R151 and R152: `tag_bsel = i` shows digest byte `i` in DONE, and 0 in every other phase. -/
def Obligations.TagByteShowsTheDigestByte : Prop :=
  ∀ (s : State) (i : Nat), i < 8 →
    let t : State := { s with tagBsel := BitVec.ofNat 3 i }
    t.tagByte = t.tagOut.extractLsb' (8 * i) 8 ∧
    (s.phase = .done → (digestBytes s.tag)[i]? = some t.tagByte ∧ t.tagByte = s.tag.extractLsb' (8 * i) 8) ∧
    (s.phase ≠ .done → t.tagByte = 0)

/-- 46_tag_output R153: the hex digest's 16 characters, byte 0 first and the high nibble first within a byte; and, as R154
derives from it, the tag is recovered from its hex digest. -/
def Obligations.TagIsRecoveredFromItsHexDigest : Prop :=
  ∀ tag : Word, (hexDigest tag).length = 16 ∧
    (∀ i < 8,
      (hexDigest tag)[2 * i]? = "0123456789abcdef".toList[(tag.extractLsb' (8 * i + 4) 4).toNat]? ∧
      (hexDigest tag)[2 * i + 1]? = "0123456789abcdef".toList[(tag.extractLsb' (8 * i) 4).toNat]?) ∧
    tagOfHex (hexDigest tag) = tag

/-- 70_reset R190: while power stays on (93 U15; log entry 3), the tag stays visible until a command other than NOP
completes or a reset, and each of those hides it; BLOCK and LAST hide it by raising SEQ. -/
def Obligations.TagIsVisibleUntilDoneIsLeft : Prop :=
  (∀ (s t : State), s.live = true → (∀ plan, s.host ≠ .losePower :: plan) → s.phase = .done → step s = .next t →
    (t.phase = .done ∧ t.tagOut = s.tag) ∨
    (s.rst = true ∧ ClockNext s) ∨
    (∃ c, Executing c s ∧ ClockNext s ∧ c.word ≠ 0x00000000)) ∧
  (∀ (s : State) (c : Command), s.phase = .done → ClockNext s →
    s.rst = true ∨ (Executing c s ∧ c.word ≠ 0x00000000) →
    ∃ t, step s = .next t ∧ t.phase ≠ .done ∧ t.tagOut = 0 ∧
      (s.rst = false → wordIllegal c.word = false → wordOp c.word = 2 ∨ wordOp c.word = 3 →
        t.phase = .error ∧ t.err = 3))

/-- 20_memory R48 and 70_reset R186: in a core that was reset, the registers change only when a command completes, at a
reset, or when power is lost (log entry 3); every other event leaves all of them. -/
def Obligations.RegistersChangeOnlyAtCompletionOrReset : Prop :=
  ∀ (s t : State), s.live = true → step s = .next t →
    ¬ (ClockNext s ∧ (s.rst = true ∨ ∃ c, s.latch = some c)) → (∀ plan, s.host ≠ .losePower :: plan) →
    t.toRegs = s.toRegs

/-! ### Reset, handshake and the host -/

/-- 70_reset R181: the reset state; it is also what CLEAR leaves in the registers. -/
def Obligations.ResetStateHoldsTheSpecValues : Prop :=
  State.reset.v = { v0 := 0, v1 := 0, v2 := 0, v3 := 0 } ∧ State.reset.lenb = 0 ∧ State.reset.tag = 0 ∧
  State.reset.phase = .idle ∧ State.reset.err = 0 ∧ State.reset.latch = none ∧
  State.reset.status = 0x0000 ∧ State.reset.tagOut = 0 ∧
  ∀ s : State, ∃ t, exec .clear s = .next t ∧ t.toRegs = State.reset.toRegs

/-- 70_reset R182: a clock edge with `rst = 1` gives the reset state, whatever command executes or is presented; an
executing command is aborted and none of its writes commit. -/
def Obligations.ResetAbortsTheExecutingCommand : Prop :=
  ∀ s : State, ClockNext s → s.rst = true →
    step s = .next { s with
      v := { v0 := 0, v1 := 0, v2 := 0, v3 := 0 }
      lenb := 0
      tag := 0
      phase := .idle
      err := 0
      latch := none
      live := true
      host := s.host.tail }

/-- 45_commands, common frame: completing a latched word that decodes is that command's meaning, on the state with the
latch emptied and the event taken from the plan; one that does not decode raises ILLEGAL. -/
def Obligations.StepRunsTheDecodedCommand : Prop :=
  ∀ (s : State) (c : Command), Executing c s → ClockNext s →
    (∀ i, decode c = .command i → step s = exec i { s with latch := none, host := s.host.tail }) ∧
    (∀ e, decode c = .illegal e →
      step s = .next { s with err := 4, phase := .error, latch := none, host := s.host.tail })

/-- 20_memory, transfer: an idle core accepts the presented command at a clock edge: it latches it, drops `cmd_ready`,
raises BUSY, and shows everything else as before. The pins stay; `taken` is the model's own mark (log entry 6). -/
def Obligations.AcceptanceLatchesTheCommand : Prop :=
  ∀ (s : State) (c : Command), s.live = true → s.rst = false → s.latch = none → s.offered = some c → ClockNext s →
    s.cmdReady = true ∧
    ∃ t, step s = .next t ∧
      t = { s with latch := some c, taken := true, host := s.host.tail } ∧
      t.cmdReady = false ∧ t.status = s.status ||| 0x0008 ∧ t.tagOut = s.tagOut ∧ t.tagByte = s.tagByte

/-- 70_reset R184: while a command executes, `cmd_ready = 0` and BUSY = 1; a command presented meanwhile is neither
accepted nor lost nor an error: it waits until the executing one has completed. -/
def Obligations.PresentedCommandWaitsWhileBusy : Prop :=
  ∀ (s : State) (c d : Command), Executing c s →
    s.cmdReady = false ∧ s.status.getLsbD 3 = true ∧
    (∀ plan, s.offered = none → s.host = .offer d :: plan →
      step s = .next { s with offered := some d, taken := false, host := plan }) ∧
    (s.offered = some d → ClockNext s →
      ∃ t, step s = .next t ∧ t.offered = some d ∧ t.latch = none ∧ t.cmdReady = true)

/-- 20_memory R52, "one transition per accepted command": from a ready core, accepting and completing a presented
command is the command's effect on the committed state, with nothing in between; the host's pins stay. -/
def Obligations.AcceptedCommandIsOneTransition : Prop :=
  ∀ (s : State) (c : Command) (plan : List HostAct),
    s.live = true → s.rst = false → s.latch = none → s.offered = some c → s.host = .clock :: .clock :: plan →
    Host.Core.run Sys2Proof.core 2 s = execute c { s with taken := true, host := plan }

/-- 60_exceptions R177: a ready core with nothing presented holds every register at a clock edge. -/
def Obligations.IdleCoreHoldsEveryRegister : Prop :=
  ∀ s : State, Ready s → ClockNext s → s.cmdReady = true ∧ step s = .next { s with host := s.host.tail }

/-- 20_memory, ports: the host's acts on the pins move the pins and nothing else (`taken` is the model's own mark of them,
log entry 6). -/
def Obligations.PinsMoveNothingButThemselves : Prop :=
  ∀ (s : State) (plan : List HostAct),
    (∀ b, s.host = .select b :: plan → step s = .next { s with tagBsel := b, host := plan }) ∧
    (∀ level, s.host = .setRst level :: plan → step s = .next { s with rst := level, host := plan }) ∧
    (∀ c, s.host = .offer c :: plan → s.offered = none →
      step s = .next { s with offered := some c, taken := false, host := plan }) ∧
    (∀ c, s.host = .offer c :: plan → s.offered = some c → step s = .next { s with host := plan }) ∧
    (s.host = .withdraw :: plan → s.offered = none → step s = .next { s with host := plan })

/-- 93_implementation_defined U4 (treatment `refuse`) on 70_reset R185: changing or withdrawing a command before its
acceptance leaves the spec, and the model refuses it by name. (After its acceptance the host may change it:
TransferFollowsTheHandshake.) -/
def Obligations.BrokenHandshakeIsRefused : Prop :=
  ∀ (s : State) (c d : Command) (plan : List HostAct), s.offered = some c → s.taken = false →
    (c ≠ d → s.host = .offer d :: plan → step s = .refused .handshakeBroken) ∧
    (s.host = .withdraw :: plan → step s = .refused .handshakeBroken)

/-- 93_implementation_defined U3 and U15 (treatment `refuse`): after a loss of power no clock edge is accepted before a
reset, and a reset re-establishes the state (60_exceptions R177, 70_reset R183). -/
def Obligations.PowerLossNeedsAReset : Prop :=
  ∀ s : State,
    (∀ plan, s.host = .losePower :: plan → ∃ t, step s = .next t ∧ t.live = false ∧ t.host = plan ∧
      t.rst = s.rst ∧ t.offered = s.offered ∧ t.taken = s.taken ∧ t.tagBsel = s.tagBsel) ∧
    (s.live = false → ClockNext s → s.rst = false → step s = .refused .notReset) ∧
    (s.live = false → ClockNext s → s.rst = true →
      ∃ t, step s = .next t ∧ t.live = true ∧ t.toRegs = Regs.reset ∧ t.latch = none)

/-! ### Invariants -/

/-- 10_state R25, both invariants, hold after reset, and so does what each phase implies. -/
def Obligations.CoherentAtReset : Prop :=
  Coherent State.reset ∧ PhaseShape State.reset

/-- 10_state R25: every step keeps both of the spec's invariants, from every state that meets them. -/
def Obligations.EveryStepKeepsCoherence : Prop :=
  ∀ s t : State, Coherent s → step s = .next t → Coherent t

/-- Every step keeps what each phase implies: IDLE is the reset state, ABSORB holds no tag and whole chunks, `err` is no
reserved code. -/
def Obligations.EveryStepKeepsThePhaseShape : Prop :=
  ∀ s t : State, PhaseShape s → step s = .next t → PhaseShape t

/-- 10_state, state words and tag: what no port shows stays unseen. Two states that differ only in the state words outside
ABSORB and in the tag register outside DONE show the same outputs, and each step keeps them so. -/
def Obligations.HiddenRegistersAreNeverObserved : Prop :=
  ∀ s t : State, SameButHidden s t →
    s.outputs = t.outputs ∧ OutcomesAgree SameButHidden (step s) (step t)

/-! ### Whole messages -/

/-- 41_decomposer R96 and R93: the number of words, and the length-only final word of a message whose length is a
multiple of 8. -/
def Obligations.WordsOfAMessage : Prop :=
  (∀ msg : List Byte, (words msg).length = msg.length / 8 + 1 ∧
    byteOf (finalWord msg) 7 = BitVec.ofNat 8 msg.length ∧
    (msg.length % 8 = 0 → (words msg).getLast? = some (BitVec.ofNat 64 (msg.length % 256 * 2 ^ 56)))) ∧
  (∀ msg : List Byte, msg.length = 8 →
    (words msg).length = 2 ∧ (words msg).getLast? = some 0x0800000000000000) ∧
  (∀ msg : List Byte, msg.length = 16 →
    (words msg).length = 3 ∧ (words msg).getLast? = some 0x1000000000000000) ∧
  words [] = [0]

/-- 41_decomposer R95: the words that the commands of `DIGEST key, M` make the core compress are `Words(M)`, in
order, whatever the ignored lanes hold. -/
def Obligations.CompressedWordsAreTheMessageWords : Prop :=
  ∀ (msg : List Byte) (junk : Nat → BitVec 128),
    let full := msg.length / 8
    let lenAfterBlocks := BitVec.ofNat 8 (8 * full)
    (List.range full).map (fun j => blockWord (asmBlock ((msg.drop (8 * j)).take 8) (junk (j + 1))).data)
      ++ [tailWord (asmLast (msg.drop (8 * full)) (junk (full + 1))).data (msg.length % 8)
            (lenAfterBlocks + BitVec.ofNat 8 (msg.length % 8))]
      = words msg

/-- 44_finalization R123: from any ready core, whatever its registers hold, a host that issues `DIGEST key, M` and
nothing else in between leaves it in DONE with `tag = SipHash24(key, M)`, shown on `tag_out`, `err = 0` and
`lenb = L mod 256`. Each command takes four events: presented, accepted, `cmd_valid` dropped, completed. -/
def Obligations.DigestCommandsComputeSipHash24 : Prop :=
  ∀ (s : State) (key msg : List Byte) (junk : Nat → BitVec 128) (plan : List HostAct),
    key.length = 16 → Ready s → s.host = issue (digestCommands key msg junk) ++ plan →
    ∃ t, Host.Core.run Sys2Proof.core (4 * (msg.length / 8 + 2)) s = .next t ∧
      t.phase = .done ∧ t.err = 0 ∧ t.lenb.toNat = msg.length % 256 ∧
      t.tag = sipHash24 key msg ∧ t.tagOut = sipHash24 key msg ∧ Ready t ∧ t.host = plan

/-! ### The handshake, whole -/

/-- 20_memory R55. At a clock edge of a core that was reset, a command comes into the empty latch exactly when `rst = 0`,
`cmd_valid = 1` and `cmd_ready = 1`, and it is the one on the pins; acceptance latches it, drops `cmd_ready`, and leaves
the registers and the pins; completion runs it, commits its effects and raises `cmd_ready`, and leaves the pins; and after
the accepting edge the host may change or drop the command it presents. (`taken` is the model's own mark of "after the
accepting edge": log entry 6.) -/
def Obligations.TransferFollowsTheHandshake : Prop :=
  (∀ (s t : State) (c : Command), s.live = true → ClockNext s → step s = .next t →
    ((s.latch = none ∧ t.latch = some c) ↔ (s.rst = false ∧ s.offered = some c ∧ s.cmdReady = true))) ∧
  (∀ (s : State) (c : Command), s.live = true → ClockNext s →
    s.rst = false → s.offered = some c → s.cmdReady = true →
    ∃ t, step s = .next t ∧ t.latch = some c ∧ t.cmdReady = false ∧ t.taken = true ∧
      t.offered = some c ∧ t.toRegs = s.toRegs) ∧
  (∀ (s : State) (c : Command), Executing c s → ClockNext s →
    ∃ t, step s = .next t ∧ execute c s = .next { t with latch := some c, host := s.host } ∧
      t.latch = none ∧ t.cmdReady = true ∧ t.offered = s.offered) ∧
  (∀ (s : State) (c d : Command) (plan : List HostAct), s.offered = some c → s.taken = true →
    (c ≠ d → s.host = .offer d :: plan →
      step s = .next { s with offered := some d, taken := false, host := plan }) ∧
    (s.host = .withdraw :: plan →
      step s = .next { s with offered := none, taken := false, host := plan }))

/-- 20_memory R55, of a host that leaves `cmd_valid` at 1: the edge after the command's completion has `rst = 0`,
`cmd_valid = 1` and `cmd_ready = 1`, so the core accepts the same command again, on the state the first one left. -/
def Obligations.CommandHeldOnThePinsIsAcceptedAgain : Prop :=
  ∀ (s : State) (c : Command) (plan : List HostAct),
    s.live = true → s.rst = false → s.latch = none → s.offered = some c →
    s.host = .clock :: .clock :: .clock :: plan →
    ∃ t, execute c { s with taken := true, host := plan } = .next t ∧
      Host.Core.run Sys2Proof.core 3 s = .next { t with latch := some c }
end

