-- ==== Sys2Proof/Laws/Decode.lean ====
section
/-! SUPPORT. The fields of a command word as numbers, and the word an encoding makes. -/

namespace Sys2Proof

theorem opField_toNat (w : BitVec 32) : (opField w).toNat = w.toNat % 16 := by
  simp [opField, BitVec.extractLsb'_toNat]

theorem rsv0Field_toNat (w : BitVec 32) : (rsv0Field w).toNat = w.toNat / 16 % 16 := by
  simp [rsv0Field, BitVec.extractLsb'_toNat, Nat.shiftRight_eq_div_pow]

theorem cntField_toNat (w : BitVec 32) : (cntField w).toNat = w.toNat / 256 % 256 := by
  simp [cntField, BitVec.extractLsb'_toNat, Nat.shiftRight_eq_div_pow]

theorem rsv1Field_toNat (w : BitVec 32) : (rsv1Field w).toNat = w.toNat / 65536 := by
  have := w.isLt
  simp [rsv1Field, BitVec.extractLsb'_toNat, Nat.shiftRight_eq_div_pow]
  omega

theorem cntField_eq_zero (w : BitVec 32) : cntField w = 0 ↔ w.toNat / 256 % 256 = 0 := by
  rw [← cntField_toNat, BitVec.toNat_eq]; rfl

theorem rsv0Field_eq_zero (w : BitVec 32) : rsv0Field w = 0 ↔ w.toNat / 16 % 16 = 0 := by
  rw [← rsv0Field_toNat, BitVec.toNat_eq]; rfl

theorem rsv1Field_eq_zero (w : BitVec 32) : rsv1Field w = 0 ↔ w.toNat / 65536 = 0 := by
  rw [← rsv1Field_toNat, BitVec.toNat_eq]; rfl

/-- The word of 30_encoding R60 as a number: `cnt` at bit 8, `op` at bit 0. -/
theorem commandWord_toNat (op : BitVec 4) (cnt : Nat) (h : cnt < 256) :
    (commandWord op cnt).toNat = cnt * 256 + op.toNat := by
  have hop := op.isLt
  have hz : ∀ n, BitVec.toNat (0 : BitVec n) = 0 := fun n => by simp
  simp only [commandWord, BitVec.toNat_append, BitVec.toNat_ofNat, hz, Nat.zero_shiftLeft, Nat.zero_or, Nat.or_zero,
    Nat.mod_eq_of_lt (show cnt < 2 ^ 8 from h), ← Nat.shiftLeft_add]
  rw [← Nat.shiftLeft_add_eq_or_of_lt (by omega), Nat.shiftLeft_eq]

end Sys2Proof
end

