-- ==== Sys2Proof/Laws/State.lean ====
section
/-! SUPPORT. What each shared write does to each field of the state: one lemma per field and write, so that no
proof unfolds a record update. -/

namespace Sys2Proof.Machine

@[simp] theorem raise_v (e : ErrCode) (s : State) : (s.raise e).v = s.v := rfl
@[simp] theorem raise_lenb (e : ErrCode) (s : State) : (s.raise e).lenb = s.lenb := rfl
@[simp] theorem raise_tag (e : ErrCode) (s : State) : (s.raise e).tag = s.tag := rfl
@[simp] theorem raise_phase (e : ErrCode) (s : State) : (s.raise e).phase = .error := rfl
@[simp] theorem raise_err (e : ErrCode) (s : State) : (s.raise e).err = e.code := rfl
@[simp] theorem raise_latch (e : ErrCode) (s : State) : (s.raise e).latch = s.latch := rfl
@[simp] theorem raise_rst (e : ErrCode) (s : State) : (s.raise e).rst = s.rst := rfl
@[simp] theorem raise_offered (e : ErrCode) (s : State) : (s.raise e).offered = s.offered := rfl
@[simp] theorem raise_taken (e : ErrCode) (s : State) : (s.raise e).taken = s.taken := rfl
@[simp] theorem raise_tagBsel (e : ErrCode) (s : State) : (s.raise e).tagBsel = s.tagBsel := rfl
@[simp] theorem raise_live (e : ErrCode) (s : State) : (s.raise e).live = s.live := rfl
@[simp] theorem raise_powerLosses (e : ErrCode) (s : State) : (s.raise e).powerLosses = s.powerLosses := rfl
@[simp] theorem raise_host (e : ErrCode) (s : State) : (s.raise e).host = s.host := rfl

@[simp] theorem leaveError_v (p : Phase) (s : State) : (s.leaveError p).v = s.v := rfl
@[simp] theorem leaveError_lenb (p : Phase) (s : State) : (s.leaveError p).lenb = s.lenb := rfl
@[simp] theorem leaveError_tag (p : Phase) (s : State) : (s.leaveError p).tag = s.tag := rfl
@[simp] theorem leaveError_phase (p : Phase) (s : State) : (s.leaveError p).phase = p := rfl
@[simp] theorem leaveError_err (p : Phase) (s : State) : (s.leaveError p).err = errNone := rfl
@[simp] theorem leaveError_latch (p : Phase) (s : State) : (s.leaveError p).latch = s.latch := rfl
@[simp] theorem leaveError_rst (p : Phase) (s : State) : (s.leaveError p).rst = s.rst := rfl
@[simp] theorem leaveError_offered (p : Phase) (s : State) : (s.leaveError p).offered = s.offered := rfl
@[simp] theorem leaveError_taken (p : Phase) (s : State) : (s.leaveError p).taken = s.taken := rfl
@[simp] theorem leaveError_tagBsel (p : Phase) (s : State) : (s.leaveError p).tagBsel = s.tagBsel := rfl
@[simp] theorem leaveError_live (p : Phase) (s : State) : (s.leaveError p).live = s.live := rfl
@[simp] theorem leaveError_powerLosses (p : Phase) (s : State) : (s.leaveError p).powerLosses = s.powerLosses := rfl
@[simp] theorem leaveError_host (p : Phase) (s : State) : (s.leaveError p).host = s.host := rfl

@[simp] theorem loadKey_v (d : BitVec 128) (s : State) : (s.loadKey d).v = initWords (keyLow d) (keyHigh d) := rfl
@[simp] theorem loadKey_lenb (d : BitVec 128) (s : State) : (s.loadKey d).lenb = 0 := rfl
@[simp] theorem loadKey_tag (d : BitVec 128) (s : State) : (s.loadKey d).tag = 0 := rfl
@[simp] theorem loadKey_phase (d : BitVec 128) (s : State) : (s.loadKey d).phase = .absorb := rfl
@[simp] theorem loadKey_err (d : BitVec 128) (s : State) : (s.loadKey d).err = errNone := rfl
@[simp] theorem loadKey_latch (d : BitVec 128) (s : State) : (s.loadKey d).latch = s.latch := rfl
@[simp] theorem loadKey_rst (d : BitVec 128) (s : State) : (s.loadKey d).rst = s.rst := rfl
@[simp] theorem loadKey_offered (d : BitVec 128) (s : State) : (s.loadKey d).offered = s.offered := rfl
@[simp] theorem loadKey_taken (d : BitVec 128) (s : State) : (s.loadKey d).taken = s.taken := rfl
@[simp] theorem loadKey_tagBsel (d : BitVec 128) (s : State) : (s.loadKey d).tagBsel = s.tagBsel := rfl
@[simp] theorem loadKey_live (d : BitVec 128) (s : State) : (s.loadKey d).live = s.live := rfl
@[simp] theorem loadKey_powerLosses (d : BitVec 128) (s : State) : (s.loadKey d).powerLosses = s.powerLosses := rfl
@[simp] theorem loadKey_host (d : BitVec 128) (s : State) : (s.loadKey d).host = s.host := rfl

@[simp] theorem absorbWord_v (m : Word) (n : Nat) (s : State) : (s.absorbWord m n).v = compress s.v m := rfl
@[simp] theorem absorbWord_lenb (m : Word) (n : Nat) (s : State) : (s.absorbWord m n).lenb = s.lenb + BitVec.ofNat 8 n := rfl
@[simp] theorem absorbWord_tag (m : Word) (n : Nat) (s : State) : (s.absorbWord m n).tag = s.tag := rfl
@[simp] theorem absorbWord_phase (m : Word) (n : Nat) (s : State) : (s.absorbWord m n).phase = s.phase := rfl
@[simp] theorem absorbWord_err (m : Word) (n : Nat) (s : State) : (s.absorbWord m n).err = s.err := rfl
@[simp] theorem absorbWord_latch (m : Word) (n : Nat) (s : State) : (s.absorbWord m n).latch = s.latch := rfl
@[simp] theorem absorbWord_rst (m : Word) (n : Nat) (s : State) : (s.absorbWord m n).rst = s.rst := rfl
@[simp] theorem absorbWord_offered (m : Word) (n : Nat) (s : State) : (s.absorbWord m n).offered = s.offered := rfl
@[simp] theorem absorbWord_taken (m : Word) (n : Nat) (s : State) : (s.absorbWord m n).taken = s.taken := rfl
@[simp] theorem absorbWord_tagBsel (m : Word) (n : Nat) (s : State) : (s.absorbWord m n).tagBsel = s.tagBsel := rfl
@[simp] theorem absorbWord_live (m : Word) (n : Nat) (s : State) : (s.absorbWord m n).live = s.live := rfl
@[simp] theorem absorbWord_powerLosses (m : Word) (n : Nat) (s : State) : (s.absorbWord m n).powerLosses = s.powerLosses := rfl
@[simp] theorem absorbWord_host (m : Word) (n : Nat) (s : State) : (s.absorbWord m n).host = s.host := rfl

@[simp] theorem finish_v (s : State) : s.finish.v = finalize s.v := rfl
@[simp] theorem finish_lenb (s : State) : s.finish.lenb = s.lenb := rfl
@[simp] theorem finish_tag (s : State) : s.finish.tag = fold (finalize s.v) := rfl
@[simp] theorem finish_phase (s : State) : s.finish.phase = .done := rfl
@[simp] theorem finish_err (s : State) : s.finish.err = s.err := rfl
@[simp] theorem finish_latch (s : State) : s.finish.latch = s.latch := rfl
@[simp] theorem finish_rst (s : State) : s.finish.rst = s.rst := rfl
@[simp] theorem finish_offered (s : State) : s.finish.offered = s.offered := rfl
@[simp] theorem finish_taken (s : State) : s.finish.taken = s.taken := rfl
@[simp] theorem finish_tagBsel (s : State) : s.finish.tagBsel = s.tagBsel := rfl
@[simp] theorem finish_live (s : State) : s.finish.live = s.live := rfl
@[simp] theorem finish_powerLosses (s : State) : s.finish.powerLosses = s.powerLosses := rfl
@[simp] theorem finish_host (s : State) : s.finish.host = s.host := rfl

@[simp] theorem clearRegs_v (s : State) : s.clearRegs.v = Regs.reset.v := rfl
@[simp] theorem clearRegs_lenb (s : State) : s.clearRegs.lenb = 0 := rfl
@[simp] theorem clearRegs_tag (s : State) : s.clearRegs.tag = 0 := rfl
@[simp] theorem clearRegs_phase (s : State) : s.clearRegs.phase = .idle := rfl
@[simp] theorem clearRegs_err (s : State) : s.clearRegs.err = errNone := rfl
@[simp] theorem clearRegs_latch (s : State) : s.clearRegs.latch = s.latch := rfl
@[simp] theorem clearRegs_rst (s : State) : s.clearRegs.rst = s.rst := rfl
@[simp] theorem clearRegs_offered (s : State) : s.clearRegs.offered = s.offered := rfl
@[simp] theorem clearRegs_taken (s : State) : s.clearRegs.taken = s.taken := rfl
@[simp] theorem clearRegs_tagBsel (s : State) : s.clearRegs.tagBsel = s.tagBsel := rfl
@[simp] theorem clearRegs_live (s : State) : s.clearRegs.live = s.live := rfl
@[simp] theorem clearRegs_powerLosses (s : State) : s.clearRegs.powerLosses = s.powerLosses := rfl
@[simp] theorem clearRegs_host (s : State) : s.clearRegs.host = s.host := rfl

@[simp] theorem resetCore_v (s : State) : s.resetCore.v = Regs.reset.v := rfl
@[simp] theorem resetCore_lenb (s : State) : s.resetCore.lenb = 0 := rfl
@[simp] theorem resetCore_tag (s : State) : s.resetCore.tag = 0 := rfl
@[simp] theorem resetCore_phase (s : State) : s.resetCore.phase = .idle := rfl
@[simp] theorem resetCore_err (s : State) : s.resetCore.err = 0 := rfl
@[simp] theorem resetCore_latch (s : State) : s.resetCore.latch = none := rfl
@[simp] theorem resetCore_rst (s : State) : s.resetCore.rst = s.rst := rfl
@[simp] theorem resetCore_offered (s : State) : s.resetCore.offered = s.offered := rfl
@[simp] theorem resetCore_taken (s : State) : s.resetCore.taken = s.taken := rfl
@[simp] theorem resetCore_tagBsel (s : State) : s.resetCore.tagBsel = s.tagBsel := rfl
@[simp] theorem resetCore_live (s : State) : s.resetCore.live = true := rfl
@[simp] theorem resetCore_powerLosses (s : State) : s.resetCore.powerLosses = s.powerLosses := rfl
@[simp] theorem resetCore_host (s : State) : s.resetCore.host = s.host := rfl

@[simp] theorem losePower_v (s : State) : s.losePower.v = (powerUpRegs s.powerLosses).v := rfl
@[simp] theorem losePower_lenb (s : State) : s.losePower.lenb = (powerUpRegs s.powerLosses).lenb := rfl
@[simp] theorem losePower_tag (s : State) : s.losePower.tag = (powerUpRegs s.powerLosses).tag := rfl
@[simp] theorem losePower_phase (s : State) : s.losePower.phase = (powerUpRegs s.powerLosses).phase := rfl
@[simp] theorem losePower_err (s : State) : s.losePower.err = (powerUpRegs s.powerLosses).err := rfl
@[simp] theorem losePower_latch (s : State) : s.losePower.latch = powerUpLatch s.powerLosses := rfl
@[simp] theorem losePower_rst (s : State) : s.losePower.rst = s.rst := rfl
@[simp] theorem losePower_offered (s : State) : s.losePower.offered = s.offered := rfl
@[simp] theorem losePower_taken (s : State) : s.losePower.taken = s.taken := rfl
@[simp] theorem losePower_tagBsel (s : State) : s.losePower.tagBsel = s.tagBsel := rfl
@[simp] theorem losePower_live (s : State) : s.losePower.live = false := rfl
@[simp] theorem losePower_powerLosses (s : State) : s.losePower.powerLosses = s.powerLosses + 1 := rfl
@[simp] theorem losePower_host (s : State) : s.losePower.host = s.host := rfl

@[simp] theorem accept_v (c : Command) (s : State) : (s.accept c).v = s.v := rfl
@[simp] theorem accept_lenb (c : Command) (s : State) : (s.accept c).lenb = s.lenb := rfl
@[simp] theorem accept_tag (c : Command) (s : State) : (s.accept c).tag = s.tag := rfl
@[simp] theorem accept_phase (c : Command) (s : State) : (s.accept c).phase = s.phase := rfl
@[simp] theorem accept_err (c : Command) (s : State) : (s.accept c).err = s.err := rfl
@[simp] theorem accept_latch (c : Command) (s : State) : (s.accept c).latch = some c := rfl
@[simp] theorem accept_rst (c : Command) (s : State) : (s.accept c).rst = s.rst := rfl
@[simp] theorem accept_offered (c : Command) (s : State) : (s.accept c).offered = s.offered := rfl
@[simp] theorem accept_taken (c : Command) (s : State) : (s.accept c).taken = true := rfl
@[simp] theorem accept_tagBsel (c : Command) (s : State) : (s.accept c).tagBsel = s.tagBsel := rfl
@[simp] theorem accept_live (c : Command) (s : State) : (s.accept c).live = s.live := rfl
@[simp] theorem accept_powerLosses (c : Command) (s : State) : (s.accept c).powerLosses = s.powerLosses := rfl
@[simp] theorem accept_host (c : Command) (s : State) : (s.accept c).host = s.host := rfl

@[simp] theorem regsReset_v : Regs.reset.v = { v0 := 0, v1 := 0, v2 := 0, v3 := 0 } := rfl
@[simp] theorem regsReset_lenb : Regs.reset.lenb = 0 := rfl
@[simp] theorem regsReset_tag : Regs.reset.tag = 0 := rfl
@[simp] theorem regsReset_phase : Regs.reset.phase = .idle := rfl
@[simp] theorem regsReset_err : Regs.reset.err = 0 := rfl

/-- CLEAR and reset leave the same registers (70_reset R181). -/
@[simp] theorem clearRegs_toRegs (s : State) : s.clearRegs.toRegs = Regs.reset := rfl

@[simp] theorem resetCore_toRegs (s : State) : s.resetCore.toRegs = Regs.reset := rfl

@[simp] theorem raise_toRegs (e : ErrCode) (s : State) :
    (s.raise e).toRegs = { s.toRegs with err := e.code, phase := .error } := rfl

@[simp] theorem accept_toRegs (c : Command) (s : State) : (s.accept c).toRegs = s.toRegs := rfl

@[simp] theorem reset_toRegs : State.reset.toRegs = Regs.reset := rfl

end Sys2Proof.Machine
end

