-- ==== Sys2Proof/Laws/Exec.lean ====
section
/-! SUPPORT. What running a command can do, said once: it always answers a next state, which is the state before, one
error entry, or the command's own writes. -/

namespace Sys2Proof.Machine

theorem execNop_eq (s : State) : exec .nop s = .next s := rfl

theorem execClear_eq (s : State) : exec .clear s = .next s.clearRegs := rfl

theorem execInit_ok (d : BitVec 128) (s : State) : exec (.init 16 d) s = .next (s.loadKey d) := rfl

theorem execInit_keyLen {cnt : Nat} (h : cnt ≠ 16) (d : BitVec 128) (s : State) :
    exec (.init cnt d) s = .next (s.raise .keyLen) := if_neg h

theorem execBlock_ok {s : State} (h : s.phase = .absorb) (d : BitVec 128) :
    exec (.block 8 d) s = .next (s.absorbWord (blockWord d) 8) := by
  simp [exec, execBlock, h, blockBytes]

theorem execBlock_seq {s : State} (h : s.phase ≠ .absorb) (cnt : Nat) (d : BitVec 128) :
    exec (.block cnt d) s = .next (s.raise .seq) := if_pos h

theorem execBlock_cnt {s : State} (h : s.phase = .absorb) {cnt : Nat} (hc : cnt ≠ 8) (d : BitVec 128) :
    exec (.block cnt d) s = .next (s.raise .cnt) := by
  simp [exec, execBlock, h, blockBytes, hc]

theorem execLast_ok {s : State} (h : s.phase = .absorb) {n : Nat} (hn : n ≤ 7) (d : BitVec 128) :
    exec (.last n d) s =
      .next (s.absorbWord (tailWord d n (s.lenb + BitVec.ofNat 8 n)) n).finish := by
  simp [exec, execLast, h, maxTail, Nat.not_lt.mpr hn]

theorem execLast_seq {s : State} (h : s.phase ≠ .absorb) (cnt : Nat) (d : BitVec 128) :
    exec (.last cnt d) s = .next (s.raise .seq) := if_pos h

theorem execLast_cnt {s : State} (h : s.phase = .absorb) {cnt : Nat} (hc : 7 < cnt) (d : BitVec 128) :
    exec (.last cnt d) s = .next (s.raise .cnt) := by
  simp [exec, execLast, h, maxTail, hc]

/-- Everything a command can do. -/
theorem exec_cases (i : Instr) (s : State) :
    (i = .nop ∧ exec i s = .next s) ∨
    (∃ d, i = .init 16 d ∧ exec i s = .next (s.loadKey d)) ∨
    (∃ d, i = .block 8 d ∧ s.phase = .absorb ∧ exec i s = .next (s.absorbWord (blockWord d) 8)) ∨
    (∃ n d, i = .last n d ∧ n ≤ 7 ∧ s.phase = .absorb ∧
      exec i s = .next (s.absorbWord (tailWord d n (s.lenb + BitVec.ofNat 8 n)) n).finish) ∨
    (i = .clear ∧ exec i s = .next s.clearRegs) ∨
    (∃ e, exec i s = .next (s.raise e)) := by
  cases i with
  | nop => exact .inl ⟨rfl, rfl⟩
  | clear => exact .inr (.inr (.inr (.inr (.inl ⟨rfl, rfl⟩))))
  | init cnt d =>
    by_cases hc : cnt = 16
    · subst hc; exact .inr (.inl ⟨d, rfl, rfl⟩)
    · exact .inr (.inr (.inr (.inr (.inr ⟨_, execInit_keyLen hc d s⟩))))
  | block cnt d =>
    by_cases hp : s.phase = .absorb
    · by_cases hc : cnt = 8
      · subst hc; exact .inr (.inr (.inl ⟨d, rfl, hp, execBlock_ok hp d⟩))
      · exact .inr (.inr (.inr (.inr (.inr ⟨_, execBlock_cnt hp hc d⟩))))
    · exact .inr (.inr (.inr (.inr (.inr ⟨_, execBlock_seq hp cnt d⟩))))
  | last n d =>
    by_cases hp : s.phase = .absorb
    · by_cases hn : n ≤ 7
      · exact .inr (.inr (.inr (.inl ⟨n, d, rfl, hn, hp, execLast_ok hp hn d⟩)))
      · exact .inr (.inr (.inr (.inr (.inr ⟨_, execLast_cnt hp (by omega) d⟩))))
    · exact .inr (.inr (.inr (.inr (.inr ⟨_, execLast_seq hp n d⟩))))

/-- A command never stops the machine (60_exceptions R160). -/
theorem exec_answers_next (i : Instr) (s : State) : ∃ t, exec i s = .next t := by
  obtain ⟨-, h⟩ | ⟨_, -, h⟩ | ⟨_, -, -, h⟩ | ⟨_, _, -, -, -, h⟩ | ⟨-, h⟩ | ⟨_, h⟩ := exec_cases i s <;>
    exact ⟨_, h⟩

theorem execute_of_decode {c : Command} {i : Instr} (h : decode c = .command i) (s : State) :
    execute c s = exec i s := by
  simp [execute, h]

theorem execute_of_illegal {c : Command} {e : Illegal} (h : decode c = .illegal e) (s : State) :
    execute c s = .next (s.raise .illegal) := by
  simp [execute, h]

theorem execute_answers_next (c : Command) (s : State) : ∃ t, execute c s = .next t := by
  cases h : decode c with
  | command i => rw [execute_of_decode h]; exact exec_answers_next i s
  | illegal e => exact ⟨_, execute_of_illegal h s⟩

/-- A command touches the architectural registers only: neither the latch nor the pins nor the host's plan. -/
theorem exec_frame {i : Instr} {s t : State} (h : exec i s = .next t) : t = { s with toRegs := t.toRegs } := by
  obtain ⟨-, k⟩ | ⟨_, -, k⟩ | ⟨_, -, -, k⟩ | ⟨_, _, -, -, -, k⟩ | ⟨-, k⟩ | ⟨_, k⟩ := exec_cases i s <;>
    (rw [k] at h; cases h; rfl)

theorem execute_frame {c : Command} {s t : State} (h : execute c s = .next t) :
    t = { s with toRegs := t.toRegs } := by
  cases hd : decode c with
  | command i => rw [execute_of_decode hd] at h; exact exec_frame h
  | illegal e => rw [execute_of_illegal hd] at h; cases h; rfl

/-- A command reads the architectural registers only: on the same registers it does the same to them, whatever the latch,
the pins and the host's plan hold. -/
theorem exec_regs_only {i : Instr} {s t : State} (h : exec i s = .next t) (u : State) :
    exec i { u with toRegs := s.toRegs } = .next { u with toRegs := t.toRegs } := by
  cases i <;> simp only [exec, execNop, execInit, execBlock, execLast, execClear] at h ⊢ <;> (repeat' split at h) <;>
    cases h <;> (repeat' split) <;> first | rfl | contradiction

theorem execute_regs_only {c : Command} {s t : State} (h : execute c s = .next t) (u : State) :
    execute c { u with toRegs := s.toRegs } = .next { u with toRegs := t.toRegs } := by
  cases hd : decode c with
  | command i => rw [execute_of_decode hd] at h ⊢; exact exec_regs_only h u
  | illegal e => rw [execute_of_illegal hd] at h ⊢; cases h; rfl

end Sys2Proof.Machine
end

