-- ==== Sys2Proof/Laws/Operands.lean ====
section
/-! SUPPORT. Lanes, packing and rotation bit by bit. -/

namespace Sys2Proof.Machine

theorem getLsbD_lane (d : BitVec 128) (i k : Nat) :
    (lane d i).getLsbD k = (decide (k < 8) && d.getLsbD (8 * i + k)) := by
  simp [lane]

theorem getLsbD_byteOf (w : Word) (i k : Nat) :
    (byteOf w i).getLsbD k = (decide (k < 8) && w.getLsbD (8 * i + k)) := by
  simp [byteOf]

/-- A byte put at byte position `i` gives the bits `8i+7:8i`. -/
theorem getLsbD_byteAtPos (b : Byte) (i k : Nat) :
    (byteAtPos b i).getLsbD k = (decide (k < 64) && decide (8 * i ≤ k) && b.getLsbD (k - 8 * i)) := by
  simp only [byteAtPos, BitVec.getLsbD_shiftLeft, BitVec.getLsbD_setWidth]
  by_cases h1 : k < 64 <;> by_cases h2 : 8 * i ≤ k
  · have h3 : ¬ k < 8 * i := by omega
    have h4 : k - 8 * i < 64 := by omega
    simp [h1, h2, h3, h4]
  · have h3 : k < 8 * i := by omega
    simp [h1, h2, h3]
  · simp [h1]
  · simp [h1]

/-- Byte `j` of a byte put at position `i`. -/
theorem byteOf_byteAtPos (b : Byte) (i j : Nat) (hi : i < 8) :
    byteOf (byteAtPos b i) j = if j = i then b else 0 := by
  apply BitVec.eq_of_getLsbD_eq
  intro k hk
  rw [getLsbD_byteOf, getLsbD_byteAtPos]
  by_cases h : j = i
  · subst h
    have h1 : 8 * j + k < 64 := by omega
    have h2 : 8 * j ≤ 8 * j + k := by omega
    have h3 : 8 * j + k - 8 * j = k := by omega
    rw [if_pos rfl, h3]; simp [hk, h1]
  · rw [if_neg h]
    by_cases hji : j < i
    · have : ¬ 8 * i ≤ 8 * j + k := by omega
      simp [this]
    · have : 8 ≤ 8 * j + k - 8 * i := by omega
      have : b.getLsbD (8 * j + k - 8 * i) = false := BitVec.getLsbD_of_ge _ _ (by omega)
      simp [this]

@[simp] theorem byteOf_or (x y : Word) (i : Nat) : byteOf (x ||| y) i = byteOf x i ||| byteOf y i := by
  apply BitVec.eq_of_getLsbD_eq
  intro k _
  rw [getLsbD_byteOf, BitVec.getLsbD_or, BitVec.getLsbD_or, getLsbD_byteOf, getLsbD_byteOf,
    Bool.and_or_distrib_left]

@[simp] theorem byteOf_zero (i : Nat) : byteOf 0#64 i = 0#8 := by
  apply BitVec.eq_of_getLsbD_eq
  intro k _
  rw [getLsbD_byteOf]; simp

/-- Two words with the same eight bytes are the same word. -/
theorem word_eq_of_bytes {x y : Word} (h : ∀ i < 8, byteOf x i = byteOf y i) : x = y := by
  apply BitVec.eq_of_getLsbD_eq
  intro k hk
  have hb := congrArg (fun b => BitVec.getLsbD b (k % 8)) (h (k / 8) (by omega))
  have hk8 : k % 8 < 8 := by omega
  have hk' : 8 * (k / 8) + k % 8 = k := by omega
  simpa only [getLsbD_byteOf, hk8, hk', decide_true, Bool.true_and] using hb

/-- Byte `i` of a packed word is the `i`-th byte packed (41_decomposer R90). -/
theorem byteOf_le64 (b0 b1 b2 b3 b4 b5 b6 b7 : Byte) (i : Nat) (hi : i < 8) :
    byteOf (le64 b0 b1 b2 b3 b4 b5 b6 b7) i = [b0, b1, b2, b3, b4, b5, b6, b7].getD i 0 := by
  simp only [le64, byteOf_or]
  rw [byteOf_byteAtPos _ 0 _ (by omega), byteOf_byteAtPos _ 1 _ (by omega), byteOf_byteAtPos _ 2 _ (by omega),
    byteOf_byteAtPos _ 3 _ (by omega), byteOf_byteAtPos _ 4 _ (by omega), byteOf_byteAtPos _ 5 _ (by omega),
    byteOf_byteAtPos _ 6 _ (by omega), byteOf_byteAtPos _ 7 _ (by omega)]
  have : i = 0 ∨ i = 1 ∨ i = 2 ∨ i = 3 ∨ i = 4 ∨ i = 5 ∨ i = 6 ∨ i = 7 := by omega
  rcases this with h | h | h | h | h | h | h | h <;> subst h <;> simp

/-- The bytes of the loop of 41_decomposer R92. -/
theorem byteOf_tailBytes (d : BitVec 128) (n i : Nat) (hn : n ≤ 8) :
    byteOf (tailBytes d n) i = if i < n then lane d i else 0 := by
  induction n with
  | zero => simp [tailBytes]
  | succ n ih =>
    rw [tailBytes, byteOf_or, ih (by omega), byteOf_byteAtPos _ _ _ (by omega)]
    by_cases h : i = n
    · subst h; simp
    · by_cases h2 : i < n
      · simp [h2, h, Nat.lt_succ_of_lt h2]
      · have : ¬ i < n + 1 := by omega
        simp [h, h2, this]

/-- A host's bytes stand on their lanes (20_memory R42). -/
theorem lane_onLanes (bs : List Byte) (rest : BitVec 128) (i : Nat) (hi : i < bs.length) (h16 : i < 16) :
    lane (onLanes bs rest) i = bs.getD i 0 := by
  induction bs generalizing i with
  | nil => simp at hi
  | cons b bs ih =>
    apply BitVec.eq_of_getLsbD_eq
    intro k hk
    rw [getLsbD_lane]
    simp only [onLanes, BitVec.getLsbD_or, BitVec.getLsbD_setWidth, BitVec.getLsbD_shiftLeft]
    cases i with
    | zero => simp [hk]; omega
    | succ i =>
      have hb : b.getLsbD (8 * (i + 1) + k) = false := BitVec.getLsbD_of_ge _ _ (by omega)
      have h1 : 8 * (i + 1) + k < 128 := by omega
      have h2 : ¬ 8 * (i + 1) + k < 8 := by omega
      have h3 : 8 * (i + 1) + k - 8 = 8 * i + k := by omega
      have := congrArg (fun b => BitVec.getLsbD b k) (ih i (by simpa using hi) (by omega))
      simp only [getLsbD_lane, hk, decide_true, Bool.true_and] at this
      simp [hk, hb, h1, h2, h3, this]

end Sys2Proof.Machine
end

