-- ==== Sys2Proof/Laws/PerInstr.lean ====
section
/-! SUPPORT. The per-instruction family EncodeFields: what the encoding of each command puts in each field. -/

namespace Sys2Proof.Laws.EncodeFields

/-- A well-formed command's word carries its opcode and its count, has zero reserved fields (30_encoding R60, R63),
and travels with its operand. -/
def Statement (i : Instr) : Prop :=
  i.wellFormed = true →
    (encode i).word.toNat = i.count * 256 + i.opcode.toNat ∧ rsv0Field (encode i).word = 0 ∧
    rsv1Field (encode i).word = 0 ∧ (encode i).data = i.operand

/-- The reserved fields of any encoded word with a count that fits are zero. -/
theorem reserved_zero (op : BitVec 4) (cnt : Nat) (h : cnt < 256) :
    rsv0Field (commandWord op cnt) = 0 ∧ rsv1Field (commandWord op cnt) = 0 := by
  have hop := op.isLt
  rw [rsv0Field_eq_zero, rsv1Field_eq_zero, commandWord_toNat op cnt h]
  omega

theorem of_count_lt (i : Instr) (h : i.count < 256) :
    (encode i).word.toNat = i.count * 256 + i.opcode.toNat ∧ rsv0Field (encode i).word = 0 ∧
    rsv1Field (encode i).word = 0 ∧ (encode i).data = i.operand :=
  ⟨commandWord_toNat _ _ h, (reserved_zero _ _ h).1, (reserved_zero _ _ h).2, rfl⟩

theorem nop : Statement .nop := fun _ => of_count_lt .nop (by decide)

theorem init (cnt : Nat) (data : BitVec 128) : Statement (.init cnt data) :=
  fun h => of_count_lt (.init cnt data) (of_decide_eq_true h)

theorem block (cnt : Nat) (data : BitVec 128) : Statement (.block cnt data) :=
  fun h => of_count_lt (.block cnt data) (of_decide_eq_true h)

theorem last (cnt : Nat) (data : BitVec 128) : Statement (.last cnt data) :=
  fun h => of_count_lt (.last cnt data) (of_decide_eq_true h)

theorem clear : Statement .clear := fun _ => of_count_lt .clear (by decide)

end Sys2Proof.Laws.EncodeFields
end

