-- ==== Sys2Proof/Laws/Step.lean ====
section
/-! SUPPORT. What a step can do, said once; and the one induction over runs. -/

namespace Sys2Proof.Machine

/-- A clock edge is the next event: the step is the edge, on the state without it in the plan. -/
theorem step_of_clockNext {s : State} (h : ClockNext s) :
    step s = State.clockEdge { s with host := s.host.tail } := by
  obtain ⟨_, _, _, _, _, _, _, _, host⟩ := s
  obtain h | h := h
  · cases h; rfl
  · cases host with
    | nil => cases h
    | cons a plan => cases Option.some.inj h; rfl

theorem clockEdge_reset {s : State} (h : s.rst = true) : s.clockEdge = .next s.resetCore := by
  simp [State.clockEdge, h]

theorem clockEdge_notReset {s : State} (h : s.rst = false) (hl : s.live = false) :
    s.clockEdge = .refused .notReset := by
  simp [State.clockEdge, h, hl]

theorem clockEdge_complete {s : State} {c : Command} (h : Executing c s) :
    s.clockEdge = execute c { s with latch := none } := by
  obtain ⟨hl, hr, hc⟩ := h
  simp [State.clockEdge, hl, hr, hc, State.complete]

theorem clockEdge_accept {s : State} {c : Command} (hl : s.live = true) (hr : s.rst = false)
    (hc : s.latch = none) (ho : s.offered = some c) : s.clockEdge = .next (s.accept c) := by
  simp [State.clockEdge, State.idleEdge, hl, hr, hc, ho]

theorem clockEdge_idle {s : State} (h : Ready s) : s.clockEdge = .next s := by
  obtain ⟨hl, hr, hc, ho⟩ := h
  simp [State.clockEdge, State.idleEdge, hl, hr, hc, ho]

/-- Completing a command: the step runs it on the state with the latch emptied. -/
theorem step_complete {s : State} {c : Command} (h : Executing c s) (hn : ClockNext s) :
    step s = execute c { s with latch := none, host := s.host.tail } := by
  rw [step_of_clockNext hn]
  exact clockEdge_complete (s := { s with host := s.host.tail }) h

/-- A clock edge with `rst = 1` is the reset event. -/
theorem step_reset {s : State} (h : s.rst = true) (hn : ClockNext s) :
    step s = .next (State.resetCore { s with host := s.host.tail }) := by
  rw [step_of_clockNext hn]
  exact clockEdge_reset (s := { s with host := s.host.tail }) h

/-- Everything a clock edge that answers a next state can do. -/
theorem clockEdge_cases {s t : State} (h : s.clockEdge = .next t) :
    (s.rst = true ∧ t = s.resetCore) ∨
    (∃ c, Executing c s ∧ execute c { s with latch := none } = .next t) ∨
    (∃ c, s.live = true ∧ s.rst = false ∧ s.latch = none ∧ s.offered = some c ∧ t = s.accept c) ∨
    (Ready s ∧ t = s) := by
  rcases Bool.eq_false_or_eq_true s.rst with hr | hr
  · rw [clockEdge_reset hr] at h; cases h
    exact .inl ⟨hr, rfl⟩
  · rcases Bool.eq_false_or_eq_true s.live with hl | hl
    · rcases Option.eq_none_or_eq_some s.latch with hc | ⟨c, hc⟩
      · rcases Option.eq_none_or_eq_some s.offered with ho | ⟨c, ho⟩
        · have hy : Ready s := ⟨hl, hr, hc, ho⟩
          rw [clockEdge_idle hy] at h; cases h
          exact .inr (.inr (.inr ⟨hy, rfl⟩))
        · rw [clockEdge_accept hl hr hc ho] at h; cases h
          exact .inr (.inr (.inl ⟨c, hl, hr, hc, ho, rfl⟩))
      · have he : Executing c s := ⟨hl, hr, hc⟩
        rw [clockEdge_complete he] at h
        exact .inr (.inl ⟨c, he, h⟩)
    · rw [clockEdge_notReset hr hl] at h; cases h

/-- The command pins driven to `o`: they stand there already and nothing moves, or the host is free to move them. -/
def CommandDriven (o : Option Command) (s t : State) : Prop :=
  (s.offered = o ∧ t = s) ∨
  (s.offered ≠ o ∧ (s.offered = none ∨ s.taken = true) ∧ t = { s with offered := o, taken := false })

theorem offerCommand_cases {s t : State} {c : Command} (h : s.offerCommand c = .next t) :
    CommandDriven (some c) s t := by
  simp only [State.offerCommand, State.driveCommand] at h
  split at h
  · cases h; exact .inl ⟨by assumption, rfl⟩
  · split at h <;> cases h
    exact .inr ⟨by assumption, by assumption, rfl⟩

theorem withdrawCommand_cases {s t : State} (h : s.withdrawCommand = .next t) : CommandDriven none s t := by
  simp only [State.withdrawCommand, State.driveCommand] at h
  split at h
  · cases h; exact .inl ⟨by assumption, rfl⟩
  · split at h <;> cases h
    exact .inr ⟨by assumption, by assumption, rfl⟩

/-- Driving the command pins touches nothing but the pins and the mark `taken`. -/
theorem CommandDriven.frame {o : Option Command} {s t : State} (h : CommandDriven o s t) :
    t = { s with offered := t.offered, taken := t.taken } := by
  obtain ⟨-, rfl⟩ | ⟨-, -, rfl⟩ := h <;> rfl

/-- Everything a step that answers a next state can do, guards included: a clock edge, or one act on the pins or the
power. -/
theorem step_cases {s t : State} (h : step s = .next t) :
    (ClockNext s ∧ s.rst = true ∧ t = State.resetCore { s with host := s.host.tail }) ∨
    (∃ c, ClockNext s ∧ Executing c s ∧ execute c { s with latch := none, host := s.host.tail } = .next t) ∨
    (∃ c, ClockNext s ∧ s.live = true ∧ s.rst = false ∧ s.latch = none ∧ s.offered = some c ∧
      t = State.accept c { s with host := s.host.tail }) ∨
    (ClockNext s ∧ Ready s ∧ t = { s with host := s.host.tail }) ∨
    (∃ plan, s.host = .losePower :: plan ∧ t = State.losePower { s with host := plan }) ∨
    (∃ level plan, s.host = .setRst level :: plan ∧ t = { s with rst := level, host := plan }) ∨
    (∃ c plan, s.host = .offer c :: plan ∧ CommandDriven (some c) { s with host := plan } t) ∨
    (∃ plan, s.host = .withdraw :: plan ∧ CommandDriven none { s with host := plan } t) ∨
    (∃ b plan, s.host = .select b :: plan ∧ t = { s with tagBsel := b, host := plan }) := by
  by_cases hn : ClockNext s
  · rw [step_of_clockNext hn] at h
    rcases clockEdge_cases h with ⟨hr, ht⟩ | ⟨c, he, hx⟩ | ⟨c, hl, hr, hc, ho, ht⟩ | ⟨hy, ht⟩
    · exact .inl ⟨hn, hr, ht⟩
    · exact .inr (.inl ⟨c, hn, he, hx⟩)
    · exact .inr (.inr (.inl ⟨c, hn, hl, hr, hc, ho, ht⟩))
    · exact .inr (.inr (.inr (.inl ⟨hn, hy, ht⟩)))
  · have hne : s.host ≠ [] := fun e => hn (.inl e)
    obtain ⟨a, plan, hh⟩ := List.exists_cons_of_ne_nil hne
    rw [show step s = State.hostAct a { s with host := plan } by simp [step, State.event, hh]] at h
    refine .inr (.inr (.inr (.inr ?_)))
    cases a with
    | clock => exact absurd (.inr (by simp [hh])) hn
    | losePower => cases h; exact .inl ⟨plan, hh, rfl⟩
    | setRst level => cases h; exact .inr (.inl ⟨level, plan, hh, rfl⟩)
    | select b => cases h; exact .inr (.inr (.inr (.inr ⟨b, plan, hh, rfl⟩)))
    | offer c => exact .inr (.inr (.inl ⟨c, plan, hh, offerCommand_cases h⟩))
    | withdraw => exact .inr (.inr (.inr (.inl ⟨plan, hh, withdrawCommand_cases h⟩)))

/-- The same, with the acts on the pins in one case: they leave the registers, the latch and the core's own marks. -/
theorem step_changes {s t : State} (h : step s = .next t) :
    (ClockNext s ∧ s.rst = true ∧ t = State.resetCore { s with host := s.host.tail }) ∨
    (∃ c, ClockNext s ∧ Executing c s ∧ execute c { s with latch := none, host := s.host.tail } = .next t) ∨
    (∃ c, ClockNext s ∧ s.live = true ∧ s.rst = false ∧ s.latch = none ∧ s.offered = some c ∧
      t = State.accept c { s with host := s.host.tail }) ∨
    (ClockNext s ∧ Ready s ∧ t = { s with host := s.host.tail }) ∨
    (∃ plan, s.host = .losePower :: plan ∧ t = State.losePower { s with host := plan }) ∨
    (t.toRegs = s.toRegs ∧ t.latch = s.latch ∧ t.live = s.live ∧ t.powerLosses = s.powerLosses ∧
      t.host = s.host.tail ∧ ¬ ClockNext s ∧ ∀ plan, s.host ≠ .losePower :: plan) := by
  rcases step_cases h with k | k | k | k | k | ⟨_, _, hh, rfl⟩ | ⟨_, _, hh, k⟩ | ⟨_, hh, k⟩ | ⟨_, _, hh, rfl⟩
  · exact .inl k
  · exact .inr (.inl k)
  · exact .inr (.inr (.inl k))
  · exact .inr (.inr (.inr (.inl k)))
  · exact .inr (.inr (.inr (.inr (.inl k))))
  all_goals
    first | rw [k.frame] | skip
    exact .inr (.inr (.inr (.inr (.inr ⟨rfl, rfl, rfl, rfl, by simp [hh], by simp [ClockNext, hh], by simp [hh]⟩))))

/-- An invariant that every step keeps holds at the end of every run that starts with it. -/
theorem run_keeps {inv : State → Prop} (hstep : ∀ s t, inv s → step s = .next t → inv t) :
    ∀ (k : Nat) (s t : State), inv s → Host.Core.run Sys2Proof.core k s = .next t → inv t := by
  intro k
  induction k with
  | zero => intro s t hs h; cases h; exact hs
  | succ k ih =>
    intro s t hs h
    cases hk : step s with
    | next u =>
      have : Host.Core.run Sys2Proof.core k u = .next t := by
        simpa [Host.Core.run, Sys2Proof.core, hk] using h
      exact ih u t (hstep s u hs hk) this
    | fault f => simp [Host.Core.run, Sys2Proof.core, hk] at h
    | refused r => simp [Host.Core.run, Sys2Proof.core, hk] at h

/-- A step that goes on, inside a run. -/
theorem run_succ_of_step {s u : State} (h : step s = .next u) (k : Nat) :
    Host.Core.run Sys2Proof.core (k + 1) s = Host.Core.run Sys2Proof.core k u := by
  simp [Host.Core.run, Sys2Proof.core, h]

end Sys2Proof.Machine
end

