-- ==== Sys2Proof/Tests/Slice0.lean ====
section
/-! SUPPORT. Tests with expected values from the spec's own examples and vectors (95_test_vectors; the section stands in
each comment), and for every statement with hypotheses a witness that meets them. -/

namespace Sys2Proof.Tests

open Sys2Proof.Machine

/-! ### Small states -/

/-- The next state of an outcome, if it is one. -/
def nextOf (o : Host.Outcome State Fault Refusal) : Option State :=
  match o with
  | .next t => some t
  | .fault _ => none
  | .refused _ => none

/-- The refusal of an outcome, if it is one. -/
def refusalOf (o : Host.Outcome State Fault Refusal) : Option Refusal :=
  match o with
  | .next _ => none
  | .fault _ => none
  | .refused r => some r

/-- The key "0123456789ABCDEF" on lanes 0..15 (section 2.1). -/
def keyData : BitVec 128 := 0x46454443424139383736353433323130

/-- 95 section 2.7, ABSORB: after `INIT "0123456789ABCDEF"` (the state words are those of section 2.1). -/
def absorbState : State :=
  { State.reset with
    v := { v0 := 0x4459585143415445, v1 := 0x222a36222c255655, v2 := 0x5b4f52515d574351, v3 := 0x322020213b355c4b }
    phase := .absorb }

/-- 95 section 2.7, DONE: after P1 (the values are P1's end state). -/
def doneState : State :=
  { State.reset with
    v := { v0 := 0x03c80347ce94f2f6, v1 := 0x365ab977a815a51b, v2 := 0x09eeb1934ff25725, v3 := 0x9073d713b5404c4e }
    lenb := 1
    tag := 0xac0fdcb09c334c86
    phase := .done }

/-- 95 section 2.7, ERROR: CNT raised in ABSORB. -/
def errorState : State := { absorbState with err := 2, phase := .error }

/-- A core that is executing a command, the clock edge being the next event. -/
def busyWith (w : BitVec 32) (d : BitVec 128) (s : State) : State :=
  { s with latch := some { word := w, data := d } }

/-- STATUS after one step. -/
def statusAfter (s : State) : Option (BitVec 16) := (nextOf (step s)).map State.status

/-! ### WellFormed: each check refuses an ill-formed term -/

theorem test_wellFormed_refuses_init_count_256 : (Instr.init 256 0).wellFormed = false := by decide

theorem test_wellFormed_refuses_block_count_256 : (Instr.block 256 0).wellFormed = false := by decide

theorem test_wellFormed_refuses_last_count_300 : (Instr.last 300 0).wellFormed = false := by decide

theorem test_wellFormed_accepts_count_255 :
    (Instr.init 255 0).wellFormed = true ∧ (Instr.block 255 0).wellFormed = true ∧
    (Instr.last 255 0).wellFormed = true := by decide

/-! ### Decoding: words written out from 30_encoding R60 to R64, every constructor -/

theorem test_decode_nop : decode { word := 0b00000000000000000000000000000000, data := 7 } = .command .nop := by decide

theorem test_decode_init :
    decode { word := 0b00000000000000000001000000000001, data := 7 } = .command (.init 16 7) := by decide

theorem test_decode_block :
    decode { word := 0b00000000000000000000100000000010, data := 7 } = .command (.block 8 7) := by decide

theorem test_decode_last :
    decode { word := 0b00000000000000000000011100000011, data := 7 } = .command (.last 7 7) := by decide

theorem test_decode_clear :
    decode { word := 0b00000000000000000000000000000100, data := 7 } = .command .clear := by decide

/-- 95 section 2.7: the ILLEGAL rows. -/
theorem test_decode_illegal :
    decode { word := 0x00000100, data := 0 } = .illegal .countNotZero ∧
    decode { word := 0x00000010, data := 0 } = .illegal .reservedField ∧
    decode { word := 0x00011001, data := 0 } = .illegal .reservedField ∧
    decode { word := 0x80000802, data := 0 } = .illegal .reservedField ∧
    decode { word := 0x00000104, data := 0 } = .illegal .countNotZero ∧
    decode { word := 0x00001005, data := 0 } = .illegal .reservedOpcode ∧
    decode { word := 0x0000000f, data := 0 } = .illegal .reservedOpcode ∧
    decode { word := 0xffffffff, data := 0 } = .illegal .reservedField := by decide

theorem test_decodeTableWord_rows :
    decodeTableWord 32 0x00000000 = some .nop ∧ decodeTableWord 32 0x00000001 = some (.init 0 0) ∧
    decodeTableWord 32 0x00000002 = some (.block 0 0) ∧ decodeTableWord 32 0x00000003 = some (.last 0 0) ∧
    decodeTableWord 32 0x00000004 = some .clear ∧ decodeTableWord 32 0x00000005 = none := by decide

/-- The command placed by `withFetchWord` is the one the next step runs: INIT with 16 gives STATUS 0x0001. -/
theorem test_withFetchWord_runs_init :
    statusAfter (State.reset.withFetchWord 32 0x00001001) = some 0x0001 := by decide

/-! ### The data path (95 sections 2.1 to 2.5) -/

theorem test_rotl64 :
    rotl64 0x0123456789abcdef 13 = 0x68acf13579bde024 ∧ rotl64 0x0123456789abcdef 32 = 0x89abcdef01234567 := by decide

theorem test_initWords_of_key :
    initWords (keyLow keyData) (keyHigh keyData) = absorbState.v := by decide

/-- Section 2.3: the step trace's round, from the Init state of key bytes 00..0f. -/
theorem test_sipRound :
    sipRound { v0 := 0x7469686173716475, v1 := 0x6b617f6d656e6665, v2 := 0x6b7f62616d677361, v3 := 0x7b6b696e727e6c7b } =
      { v0 := 0x6864848c93698c85, v1 := 0x41d43f143c94a7dc, v2 := 0xf3f94792d7121732, v3 := 0x5e52f75805987c12 } := by
  decide

/-- Section 2.3: the additions wrap. -/
theorem test_sipRound_wraps :
    sipRound { v0 := 0xffffffffffffffff, v1 := 1, v2 := 0xffffffffffffffff, v3 := 1 } =
      { v0 := 0x0000000000010000, v1 := 0x0000000040002000, v2 := 0x0000200000000000, v3 := 0x0000002000010000 } := by
  decide

theorem test_compress :
    compress absorbState.v 0x0100000000000061 =
      { v0 := 0x6263df71131dad30, v1 := 0x17f990201f923cae, v2 := 0x0282bff9d530f6f7, v3 := 0xdad45d7194a33b07 } := by
  decide

theorem test_finalize_and_fold :
    finalize { v0 := 0, v1 := 0, v2 := 0, v3 := 0 } =
      { v0 := 0x3ba8d6249abb9447, v1 := 0x7f08abb380e0fb63, v2 := 0xce48a7ccd3b5a5d2, v3 := 0xb6a43107099e1056 } ∧
    fold { v0 := 1, v1 := 2, v2 := 4, v3 := 8 } = 0x000000000000000f := by decide

/-- Section 2.2: the final words of "a" and of 7 x ff. -/
theorem test_tailWord :
    tailWord 0x61 1 1 = 0x0100000000000061 ∧ tailWord 0xffffffffffffffff 7 7 = 0x07ffffffffffffff ∧
    tailWord 0xffffffffffffffff 0 8 = 0x0800000000000000 := by decide

theorem test_words_of_12_bytes :
    words [0x30, 0x31, 0x32, 0x33, 0x34, 0x35, 0x36, 0x37, 0x38, 0x39, 0x41, 0x42] =
      [0x3736353433323130, 0x0c00000042413938] := by decide

/-- Section 2.6, reference table, L = 0 and L = 1 (key bytes 00..0f). -/
theorem test_sipHash24_reference_table :
    sipHash24 [0, 1, 2, 3, 4, 5, 6, 7, 8, 9, 10, 11, 12, 13, 14, 15] [] = 0x726fdb47dd0e0e31 ∧
    sipHash24 [0, 1, 2, 3, 4, 5, 6, 7, 8, 9, 10, 11, 12, 13, 14, 15] [0] = 0x74f839c593dc67fd := by decide

/-- 46_tag_output R153: the hex digest of P1's tag. -/
theorem test_hexDigest :
    hexDigest 0xac0fdcb09c334c86 =
      ['8', '6', '4', 'c', '3', '3', '9', 'c', 'b', '0', 'd', 'c', '0', 'f', 'a', 'c'] := by decide

/-- 30_encoding R68: the assembler's words are those the encoder makes. -/
theorem test_assembly_words :
    (asmInit 15 [] 0).word = 0x00000f01 ∧ asmBlock [] 5 = encode (.block 8 5) ∧
    (asmLast [1, 2, 3] 0).word = (encode (.last 3 0)).word ∧ asmNop 0 = encode .nop ∧ asmClear 0 = encode .clear := by
  decide

/-- 30_encoding R69: `CLEAR_AND_DIGEST key, ""` is CLEAR, INIT, LAST.0. -/
theorem test_clearAndDigest_of_empty_message :
    (clearAndDigestCommands [] [] (fun _ => 0)).map Command.word = [0x00000004, 0x00001001, 0x00000003] := by decide

/-! ### The commands, one step each (95 section 2.7 and the programs of section 3) -/

theorem test_nop_in_done_keeps_the_tag :
    (nextOf (step (busyWith 0x00000000 0 doneState))).map State.outputs =
      some { cmdReady := true, status := 0x0106, tagOut := 0xac0fdcb09c334c86, tagByte := 0x86 } := by decide

theorem test_nop_in_error_keeps_err : statusAfter (busyWith 0x00000000 0 errorState) = some 0x0023 := by decide

theorem test_init_from_done : (nextOf (step (busyWith 0x00001001 keyData doneState))) = some absorbState := by decide

theorem test_init_15_is_keylen : statusAfter (busyWith 0x00000f01 keyData doneState) = some 0x0113 := by decide

/-- P4, command 2: BLOCK "01234567". -/
theorem test_block_compresses :
    (nextOf (step (busyWith 0x00000802 0x3736353433323130 absorbState))).map (fun t => (t.v, t.status)) =
      some ({ v0 := 0xf99d79a48bdcd659, v1 := 0xf6b784a5127c8905, v2 := 0x914fdf37df19f1d0, v3 := 0xed7cd63215ebcec8 },
        0x0801) := by decide

theorem test_block_priority :
    statusAfter (busyWith 0x00000402 0 State.reset) = some 0x0033 ∧
    statusAfter (busyWith 0x00000402 0 absorbState) = some 0x0023 := by decide

/-- P5, command 8: LAST.1 "a" with junk on lanes 1..15 gives P1's end state. -/
theorem test_last_ignores_junk_lanes :
    nextOf (step (busyWith 0x00000103 0xeeddccbbaa99887766554433deadbe61 absorbState)) = some doneState := by decide

theorem test_last_8_is_cnt : statusAfter (busyWith 0x00000803 0 absorbState) = some 0x0023 := by decide

theorem test_clear_from_done : nextOf (step (busyWith 0x00000004 0 doneState)) = some State.reset := by decide

/-- P7, command 5: an illegal word in DONE hides the tag and keeps the tag register. -/
theorem test_illegal_in_done_hides_the_tag :
    (nextOf (step (busyWith 0x00000010 0 doneState))).map (fun t => (t.status, t.tagOut, t.tag)) =
      some (0x0143, 0, 0xac0fdcb09c334c86) := by decide

/-- Section 2.8: `tag_byte` for `tag_bsel = 7`. -/
theorem test_tagByte_7 : ({ doneState with tagBsel := 7 } : State).tagByte = 0xac := by decide

/-! ### Handshake and reset, one step each -/

/-- A presented command is latched, BUSY shows, and the rest of STATUS stays (20_memory R48, R55). -/
theorem test_acceptance_shows_busy :
    statusAfter { doneState with offered := some { word := 0x00000004, data := 0 } } = some 0x010e := by decide

theorem test_reset_aborts :
    nextOf (step { busyWith 0x00000103 0x61 absorbState with rst := true }) = some { State.reset with rst := true } := by
  decide

theorem test_busy_is_zero_while_rst : ({ busyWith 0 0 doneState with rst := true } : State).status = 0x0106 := by decide

theorem test_changed_command_is_refused :
    refusalOf (step { State.reset with offered := some { word := 1, data := 0 }, host := [.offer { word := 2, data := 0 }] })
      = some .handshakeBroken := by decide

/-- 20_memory R55: `cmd_valid` left at 1 through acceptance and completion is accepted again at the third edge. -/
theorem test_held_command_is_accepted_again :
    nextOf (Host.Core.run Sys2Proof.core 3 { State.reset with offered := some { word := 0, data := 5 } }) =
      some { State.reset with
        latch := some { word := 0, data := 5 }, offered := some { word := 0, data := 5 }, taken := true } := by decide

/-- 70_reset R185: after the accepting edge the host may change what it presents. -/
theorem test_host_may_change_after_acceptance :
    (nextOf (Host.Core.run Sys2Proof.core 3 { State.reset with
      host := [.offer { word := 0, data := 5 }, .clock, .offer { word := 4, data := 0 }] })).map
        (fun t => (t.latch, t.offered)) = some (some { word := 0, data := 5 }, some { word := 4, data := 0 }) := by decide

theorem test_unreset_core_is_refused : refusalOf (step { State.reset with live := false }) = some .notReset := by decide

/-! ### Witnesses: states and operands that meet the hypotheses of each statement, at the ends of the ranges -/

theorem witness_DecodeOfEncodeIsIdentity :
    (Instr.nop).wellFormed = true ∧ (Instr.init 255 1).wellFormed = true ∧ (Instr.block 0 1).wellFormed = true ∧
    (Instr.last 255 1).wellFormed = true ∧ (Instr.clear).wellFormed = true := by decide

theorem witness_EncodeOfDecodeIsIdentity :
    decode { word := 0x0000ff03, data := 9 } = .command (.last 255 9) ∧
    decode { word := 0x00000004, data := 9 } = .command .clear := by decide

theorem witness_BytesAndWordsAreLittleEndian : (7 ≤ 7 ∧ 6 < 7 ∧ 0 < 7) ∧ (7 < 8 ∧ 0 < 8) := by decide

theorem witness_TagIsRecoveredFromItsHexDigest : 0 < 8 ∧ 7 < 8 := by decide

theorem witness_TailWordHoldsTailAndLengthByte :
    (0 ≤ 7 ∧ 0 ≤ 0 ∧ 6 < 7) ∧ (7 ≤ 7 ∧ 6 < 7) ∧ byteOf (tailWord 0xaabbccddeeff11 7 5) 6 = 0xaa := by decide

theorem witness_IgnoredLanesHaveNoEffect :
    (∀ i < 8, lane 0x01000000000000000000000000000061 i = lane 0x61 i) ∧
    (∀ i < 1, lane 0xff61 i = lane 0x61 i) ∧ (∀ i < 0, lane 1 i = lane 2 i) := by decide

theorem witness_RotateLeftMovesEachBit :
    (1 ≤ 1 ∧ 1 ≤ 63 ∧ 63 < 64) ∧ (1 ≤ 63 ∧ 63 ≤ 63 ∧ 0 < 64) ∧ (rotl64 1 63).getLsbD 63 = true := by decide

theorem witness_InitRejectsOtherKeyLengths : 15 ≠ 16 ∧ 17 ≠ 16 ∧ 0 ≠ 16 := by decide

theorem witness_BlockCompressesTheChunk : absorbState.phase = .absorb := by decide

theorem witness_LastProducesTheTag : absorbState.phase = .absorb ∧ 0 ≤ 7 ∧ 7 ≤ 7 := by decide

theorem witness_BlocksFoldInAcceptanceOrder :
    ({ absorbState with lenb := 0xf8 } : State).phase = .absorb ∧ [(1 : BitVec 128), 2].length = 2 := by decide

theorem witness_ByteCountsOutOfRangeRaiseCnt :
    absorbState.phase = .absorb ∧ 7 ≠ 8 ∧ 9 ≠ 8 ∧ 7 < 8 ∧ 7 < 255 := by decide

theorem witness_OnlyBlockAndLastRaiseSeq :
    State.reset.phase ≠ .absorb ∧ doneState.phase ≠ .absorb ∧ errorState.phase ≠ .absorb := by decide

/-- Each of the kinds of illegal word, executing. -/
theorem witness_IllegalWordsRaiseIllegalInEveryPhase :
    (let s := busyWith 0x00000010 0 doneState
     Executing { word := 0x00000010, data := 0 } s ∧ ClockNext s ∧ (0x00000010 : BitVec 32).toNat / 16 % 16 ≠ 0) ∧
    (let s := busyWith 0x00010000 0 errorState
     Executing { word := 0x00010000, data := 0 } s ∧ ClockNext s ∧ (0x00010000 : BitVec 32).toNat / 65536 ≠ 0) ∧
    (let s := busyWith 0x0000000f 0 absorbState
     Executing { word := 0x0000000f, data := 0 } s ∧ ClockNext s ∧ 5 ≤ (0x0000000f : BitVec 32).toNat % 16) ∧
    (let s := busyWith 0x00000104 0 State.reset
     Executing { word := 0x00000104, data := 0 } s ∧ ClockNext s ∧ (0x00000104 : BitVec 32).toNat % 16 = 4 ∧
       (0x00000104 : BitVec 32).toNat / 256 % 256 ≠ 0) := by decide

/-- Each outcome of `firstError`, executing: the hypotheses of every statement over `Executing` and `ClockNext`. -/
theorem witness_FirstErrorInPriorityOrderIsReported :
    (Executing { word := 0x00000402, data := 0 } (busyWith 0x00000402 0 State.reset) ∧
      ClockNext (busyWith 0x00000402 0 State.reset) ∧ firstError 0x00000402 .idle = some .seq) ∧
    (Executing { word := 0x00000402, data := 0 } (busyWith 0x00000402 0 absorbState) ∧
      ClockNext (busyWith 0x00000402 0 absorbState) ∧ firstError 0x00000402 .absorb = some .cnt) ∧
    (Executing { word := 0x00000f01, data := 0 } (busyWith 0x00000f01 0 errorState) ∧
      ClockNext (busyWith 0x00000f01 0 errorState) ∧ firstError 0x00000f01 .error = some .keyLen) ∧
    (Executing { word := 0x00001011, data := 0 } (busyWith 0x00001011 0 doneState) ∧
      ClockNext (busyWith 0x00001011 0 doneState) ∧ firstError 0x00001011 .done = some .illegal) ∧
    (Executing { word := 0x00000703, data := 0 } (busyWith 0x00000703 0 absorbState) ∧
      ClockNext (busyWith 0x00000703 0 absorbState) ∧ firstError 0x00000703 .absorb = none) ∧
    (let s : State := { busyWith 0x00000402 0 absorbState with rst := true }
     s.rst = true ∧ s.latch = some { word := 0x00000402, data := 0 } ∧ ClockNext s) := by decide

theorem witness_FailingCommandsWriteOnlyErrAndPhase :
    (let s := busyWith 0x00000803 0 absorbState
     Executing { word := 0x00000803, data := 0 } s ∧ ClockNext s ∧ firstError 0x00000803 s.phase = some .cnt) ∧
    ((nextOf (step (busyWith 0x00000803 0 absorbState))).map (fun t => t.phase)) = some .error := by decide

theorem witness_ErrorIsLeftOnlyByInitClearOrReset :
    (errorState.live = true ∧ errorState.phase = .error ∧ errorState.host.head? ≠ some .losePower) ∧
    (nextOf (step (busyWith 0x00001001 keyData errorState))).map (fun t => t.phase) = some .absorb ∧
    (nextOf (step (busyWith 0x00000004 0 errorState))).map (fun t => t.phase) = some .idle ∧
    (nextOf (step { errorState with rst := true })).map (fun t => t.phase) = some .idle ∧
    15 ≠ 16 ∧ wordIllegal 0x00000005 = true := by decide

theorem witness_ExactlyTwelveWordsSucceed :
    (let s := busyWith 0x00000703 0 absorbState
     Executing { word := 0x00000703, data := 0 } s ∧ ClockNext s ∧ s.phase = .absorb) ∧
    (let s := busyWith 0x00000802 0 doneState
     Executing { word := 0x00000802, data := 0 } s ∧ ClockNext s ∧ s.phase = .done) ∧
    (let s := busyWith 0x00000000 0 State.reset
     Executing { word := 0x00000000, data := 0 } s ∧ ClockNext s ∧ s.phase = .idle) ∧
    (let s := busyWith 0x00000003 0 errorState
     Executing { word := 0x00000003, data := 0 } s ∧ ClockNext s ∧ s.phase = .error ∧
       (0x00000003 : BitVec 32) ∉ [(0x00000000 : BitVec 32), 0x00001001, 0x00000004]) := by decide

/-- PhaseAfterEveryCommand, LengthCounterAfterEveryCommand, TagRegisterAfterEveryCommand,
ErrorRegisterAfterEveryCommand, StatusWordFields: a successful word of each opcode, a failing one, and a reset. -/
theorem witness_RegistersAfterEveryCommand :
    (∀ w ∈ [(0x00000000 : BitVec 32), 0x00001001, 0x00000802, 0x00000703, 0x00000004, 0x00000803],
      Executing { word := w, data := 0 } (busyWith w 0 absorbState) ∧ ClockNext (busyWith w 0 absorbState)) ∧
    (∀ w ∈ [(0x00000000 : BitVec 32), 0x00001001, 0x00000802, 0x00000703, 0x00000004],
      firstError w .absorb = none) ∧ firstError 0x00000803 .absorb = some .cnt ∧
    (let s : State := { doneState with rst := true }
     s.rst = true ∧ ClockNext s) := by
  refine ⟨fun w hw => ?_, fun w hw => ?_, by decide, by decide⟩ <;>
    simp only [List.mem_cons, List.not_mem_nil, or_false] at hw
  · rcases hw with rfl | rfl | rfl | rfl | rfl | rfl <;> decide
  · rcases hw with rfl | rfl | rfl | rfl | rfl <;> decide

theorem witness_TagByteShowsTheDigestByte :
    0 < 8 ∧ 7 < 8 ∧ doneState.phase = .done ∧ errorState.phase ≠ .done := by decide

theorem witness_TagIsVisibleUntilDoneIsLeft :
    (doneState.live = true ∧ doneState.phase = .done ∧ doneState.host.head? ≠ some .losePower ∧
      nextOf (step doneState) = some doneState) ∧
    (let s := busyWith 0x00000802 0 doneState
     s.phase = .done ∧ ClockNext s ∧ Executing { word := 0x00000802, data := 0 } s ∧
       (0x00000802 : BitVec 32) ≠ 0x00000000 ∧ s.rst = false ∧ wordIllegal 0x00000802 = false ∧
       wordOp 0x00000802 = 2) ∧
    (let s : State := { doneState with rst := true }
     s.phase = .done ∧ ClockNext s ∧ s.rst = true) := by decide

/-- A waiting host act and an acceptance: neither completes a command. -/
theorem witness_RegistersChangeOnlyAtCompletionOrReset :
    (let s : State := { doneState with host := [.select 3] }
     s.live = true ∧ nextOf (step s) = some { s with tagBsel := 3, host := [] } ∧ ¬ ClockNext s ∧
       s.host.head? ≠ some .losePower) ∧
    (let s : State := { doneState with offered := some { word := 0, data := 0 } }
     s.live = true ∧ (nextOf (step s)).isSome = true ∧ ClockNext s ∧ s.rst ≠ true ∧ s.latch = none ∧
       s.host.head? ≠ some .losePower) := by decide

theorem witness_ResetAbortsTheExecutingCommand :
    (let s : State := { busyWith 0x00000103 0x61 absorbState with rst := true }
     ClockNext s ∧ s.rst = true ∧ s.latch.isSome = true) ∧
    (let s : State := { absorbState with rst := true, host := [.clock, .setRst false] }
     ClockNext s ∧ s.rst = true) := by decide

theorem witness_StepRunsTheDecodedCommand :
    (let s := State.reset.withFetchWord 32 0x00001001
     Executing { word := 0x00001001, data := 0 } s ∧ ClockNext s) ∧
    decode { word := 0x00001001, data := 0 } = .command (.init 16 0) ∧
    (let s := busyWith 0x00000005 0 State.reset
     Executing { word := 0x00000005, data := 0 } s ∧ ClockNext s) ∧
    decode { word := 0x00000005, data := 0 } = .illegal .reservedOpcode := by decide

theorem witness_AcceptanceLatchesTheCommand :
    let s : State := { absorbState with offered := some { word := 0x00000003, data := 0 } }
    s.live = true ∧ s.rst = false ∧ s.latch = none ∧ s.offered = some { word := 0x00000003, data := 0 } ∧
      ClockNext s := by decide

theorem witness_PresentedCommandWaitsWhileBusy :
    (let s : State := { busyWith 0 0 doneState with host := [.offer { word := 4, data := 0 }] }
     Executing { word := 0, data := 0 } s ∧ s.offered = none ∧ s.host = .offer { word := 4, data := 0 } :: []) ∧
    (let s : State := { busyWith 0 0 doneState with offered := some { word := 4, data := 0 } }
     Executing { word := 0, data := 0 } s ∧ s.offered = some { word := 4, data := 0 } ∧ ClockNext s) := by decide

theorem witness_AcceptedCommandIsOneTransition :
    let s : State := { absorbState with offered := some { word := 3, data := 0 }, host := [.clock, .clock, .select 1] }
    s.live = true ∧ s.rst = false ∧ s.latch = none ∧ s.offered = some { word := 3, data := 0 } ∧
      s.host = .clock :: .clock :: [.select 1] := by decide

theorem witness_IdleCoreHoldsEveryRegister :
    (Ready doneState ∧ ClockNext doneState) ∧
    (let s : State := { absorbState with host := [.clock] }
     Ready s ∧ ClockNext s) := by decide

theorem witness_PinsMoveNothingButThemselves :
    ({ doneState with host := [.select 7] } : State).host = .select 7 :: [] ∧
    ({ doneState with host := [.setRst true] } : State).host = .setRst true :: [] ∧
    (let s : State := { doneState with host := [.offer { word := 4, data := 0 }] }
     s.host = .offer { word := 4, data := 0 } :: [] ∧ s.offered = none) ∧
    (let s : State := { doneState with offered := some { word := 4, data := 0 }, host := [.offer { word := 4, data := 0 }] }
     s.host = .offer { word := 4, data := 0 } :: [] ∧ s.offered = some { word := 4, data := 0 }) ∧
    (let s : State := { doneState with host := [.withdraw] }
     s.host = .withdraw :: [] ∧ s.offered = none) := by decide

theorem witness_BrokenHandshakeIsRefused :
    (let s : State := { doneState with offered := some { word := 4, data := 0 }, host := [.offer { word := 4, data := 1 }] }
     s.offered = some { word := 4, data := 0 } ∧ s.taken = false ∧ ({ word := 4, data := 0 } : Command) ≠ { word := 4, data := 1 } ∧
       s.host = .offer { word := 4, data := 1 } :: []) ∧
    (let s : State := { doneState with offered := some { word := 4, data := 0 }, host := [.withdraw] }
     s.offered = some { word := 4, data := 0 } ∧ s.taken = false ∧ s.host = .withdraw :: []) := by decide

theorem witness_PowerLossNeedsAReset :
    ({ doneState with host := [.losePower] } : State).host = .losePower :: [] ∧
    (let s : State := { doneState with live := false }
     s.live = false ∧ ClockNext s ∧ s.rst = false) ∧
    (let s : State := { doneState with live := false, rst := true }
     s.live = false ∧ ClockNext s ∧ s.rst = true) := by decide

/-- P1's end state meets both invariants in a phase where each says something, and so do the others. -/
theorem witness_EveryStepKeepsCoherence :
    (Coherent doneState ∧ doneState.live = true ∧ nextOf (step (busyWith 0 0 doneState)) = some doneState) ∧
    Coherent absorbState ∧ Coherent errorState := by
  refine ⟨⟨?_, by decide, by decide⟩, ?_, ?_⟩ <;> (unfold Coherent; decide)

theorem witness_EveryStepKeepsThePhaseShape :
    (PhaseShape absorbState ∧ absorbState.live = true ∧
      (nextOf (step (busyWith 0x00000802 0 absorbState))).isSome = true) ∧
    PhaseShape State.reset ∧ PhaseShape doneState ∧ PhaseShape errorState := by
  refine ⟨⟨?_, by decide, by decide⟩, ?_, ?_, ?_⟩ <;> (unfold PhaseShape; decide)

/-- Two different states that look the same, in each of three phases. -/
theorem witness_HiddenRegistersAreNeverObserved :
    SameButHidden errorState { errorState with v := doneState.v, tag := 5 } ∧
    SameButHidden doneState { doneState with v := absorbState.v } ∧
    SameButHidden absorbState { absorbState with tag := 5 } := by
  refine ⟨?_, ?_, ?_⟩ <;> (unfold SameButHidden; decide)

theorem witness_WordsOfAMessage :
    (List.replicate 8 (0 : Byte)).length % 8 = 0 ∧ (List.replicate 8 (0 : Byte)).length = 8 ∧
    (List.replicate 16 (0 : Byte)).length = 16 ∧ ([] : List Byte).length % 8 = 0 := by decide

theorem witness_DigestCommandsComputeSipHash24 :
    let key := List.replicate 16 (1 : Byte)
    let s : State := { doneState with host := issue (digestCommands key [0x61] (fun _ => 3)) ++ [.select 2] }
    key.length = 16 ∧ Ready s ∧ s.host = issue (digestCommands key [0x61] (fun _ => 3)) ++ [.select 2] := by decide

/-- Each clause of the handshake: acceptance, an edge with nothing accepted, completion, and the host's freedom after the
accepting edge. -/
theorem witness_TransferFollowsTheHandshake :
    (let s : State := { absorbState with offered := some { word := 3, data := 0 } }
     s.live = true ∧ ClockNext s ∧ s.rst = false ∧ s.offered = some { word := 3, data := 0 } ∧ s.cmdReady = true ∧
       (nextOf (step s)).map (fun t => t.latch) = some (some { word := 3, data := 0 })) ∧
    (let s : State := { absorbState with offered := some { word := 3, data := 0 }, rst := true }
     s.live = true ∧ ClockNext s ∧ (nextOf (step s)).map (fun t => t.latch) = some none) ∧
    (let s := busyWith 0x00000004 0 doneState
     Executing { word := 0x00000004, data := 0 } s ∧ ClockNext s) ∧
    (let s : State := { busyWith 4 0 doneState with
       offered := some { word := 4, data := 0 }, taken := true, host := [.offer { word := 1, data := 0 }] }
     s.offered = some { word := 4, data := 0 } ∧ s.taken = true ∧
       ({ word := 4, data := 0 } : Command) ≠ { word := 1, data := 0 } ∧ s.host = .offer { word := 1, data := 0 } :: []) ∧
    (let s : State := { busyWith 4 0 doneState with
       offered := some { word := 4, data := 0 }, taken := true, host := [.withdraw] }
     s.offered = some { word := 4, data := 0 } ∧ s.taken = true ∧ s.host = .withdraw :: []) := by decide

theorem witness_CommandHeldOnThePinsIsAcceptedAgain :
    let s : State := { absorbState with
      offered := some { word := 0x00000802, data := 1 }, host := [.clock, .clock, .clock, .select 1] }
    s.live = true ∧ s.rst = false ∧ s.latch = none ∧ s.offered = some { word := 0x00000802, data := 1 } ∧
      s.host = .clock :: .clock :: .clock :: [.select 1] := by decide

end Sys2Proof.Tests
end

section
/-! SUPPORT. What completing a command does, said once on the raw bits of its word: the decoder and `firstError` agree,
and a command ends in one error entry or in the writes of its opcode. -/

namespace Sys2Proof.Machine

/-! ### The decoder on the raw bits of a command word (30_encoding R66) -/

theorem wordOp_eq (w : BitVec 32) : wordOp w = (opField w).toNat := (opField_toNat w).symm

theorem wordCnt_eq (w : BitVec 32) : wordCnt w = (cntField w).toNat := (cntField_toNat w).symm

theorem wordCnt_eq_zero (w : BitVec 32) : wordCnt w = 0 ↔ cntField w = 0 := (cntField_eq_zero w).symm

theorem wordReservedZero_iff (w : BitVec 32) : wordReservedZero w = true ↔ rsv0Field w = 0 ∧ rsv1Field w = 0 := by
  rw [rsv0Field_eq_zero, rsv1Field_eq_zero, wordReservedZero, decide_eq_true_eq]

theorem wordIllegal_iff (w : BitVec 32) :
    wordIllegal w = true ↔
      (rsv0Field w ≠ 0 ∨ rsv1Field w ≠ 0) ∨ 5 ≤ wordOp w ∨ ((wordOp w = 0 ∨ wordOp w = 4) ∧ cntField w ≠ 0) := by
  rw [wordIllegal, Bool.or_eq_true, Bool.not_eq_true', ← Bool.not_eq_true, wordReservedZero_iff, not_and_or,
    decide_eq_true_eq, ne_eq, wordCnt_eq_zero]

theorem decode_of_wordIllegal {c : Command} (h : wordIllegal c.word = true) : ∃ why, decode c = .illegal why := by
  rw [wordIllegal_iff] at h
  by_cases hr : rsv0Field c.word ≠ 0 ∨ rsv1Field c.word ≠ 0
  · exact ⟨.reservedField, if_pos hr⟩
  rw [decode, if_neg hr, ← wordOp_eq]
  obtain h5 | ⟨h0 | h4, hc⟩ := h.resolve_left hr
  · split
    case h_6 => exact ⟨.reservedOpcode, rfl⟩
    all_goals omega
  · rw [h0]; exact ⟨.countNotZero, if_neg hc⟩
  · rw [h4]; exact ⟨.countNotZero, if_neg hc⟩

/-- A word that is not illegal is one of the five commands, chosen by its opcode alone. -/
theorem decode_of_not_wordIllegal {c : Command} (h : ¬ wordIllegal c.word = true) :
    (wordOp c.word = 0 ∧ decode c = .command .nop) ∨
    (wordOp c.word = 1 ∧ decode c = .command (.init (wordCnt c.word) c.data)) ∨
    (wordOp c.word = 2 ∧ decode c = .command (.block (wordCnt c.word) c.data)) ∨
    (wordOp c.word = 3 ∧ decode c = .command (.last (wordCnt c.word) c.data)) ∨
    (wordOp c.word = 4 ∧ decode c = .command .clear) := by
  obtain ⟨hr, hrest⟩ := not_or.mp (mt (wordIllegal_iff _).mpr h)
  obtain ⟨h5, hc⟩ := not_or.mp hrest
  have hno (i : Instr) (h : wordOp c.word = 0 ∨ wordOp c.word = 4) : decodeNoCount c.word i = .command i :=
    if_pos (by_contra fun hne => hc ⟨h, hne⟩)
  have hop : wordOp c.word = 0 ∨ wordOp c.word = 1 ∨ wordOp c.word = 2 ∨ wordOp c.word = 3 ∨ wordOp c.word = 4 := by
    omega
  rw [decode, if_neg hr, ← wordOp_eq, ← wordCnt_eq]
  obtain h | h | h | h | h := hop <;> simp [h, hno]

/-! ### Which error a word meets, by its opcode (60_exceptions R166) -/

theorem firstError_of_wordIllegal {w : BitVec 32} (h : wordIllegal w = true) (p : Phase) :
    firstError w p = some .illegal := if_pos h

section
variable {w : BitVec 32} (h : ¬ wordIllegal w = true) (p : Phase)
include h

theorem firstError_nop (hop : wordOp w = 0) : firstError w p = none := by
  simp [firstError, h, hop]

theorem firstError_init (hop : wordOp w = 1) :
    firstError w p = if wordCnt w ≠ 16 then some .keyLen else none := by
  simp [firstError, h, hop]

theorem firstError_block (hop : wordOp w = 2) :
    firstError w p = if p ≠ .absorb then some .seq else if wordCnt w ≠ 8 then some .cnt else none := by
  simp [firstError, h, hop]

theorem firstError_last (hop : wordOp w = 3) :
    firstError w p = if p ≠ .absorb then some .seq else if 7 < wordCnt w then some .cnt else none := by
  simp [firstError, h, hop]

theorem firstError_clear (hop : wordOp w = 4) : firstError w p = none := by
  simp [firstError, h, hop]

end

/-! ### What a command does to the state (45_commands R130 to R135) -/

/-- The states in which the command `c` can leave `s`: after one error entry, or after the writes of its opcode. -/
inductive CommandOutcome (c : Command) (s : State) : State → Prop where
  | failed {e : ErrCode} (he : firstError c.word s.phase = some e) : CommandOutcome c s (s.raise e)
  | nop (he : firstError c.word s.phase = none) (hop : wordOp c.word = 0) : CommandOutcome c s s
  | init (he : firstError c.word s.phase = none) (hop : wordOp c.word = 1) : CommandOutcome c s (s.loadKey c.data)
  | block (he : firstError c.word s.phase = none) (hop : wordOp c.word = 2) :
    CommandOutcome c s (s.absorbWord (blockWord c.data) 8)
  | last (he : firstError c.word s.phase = none) (hop : wordOp c.word = 3) :
    CommandOutcome c s (s.absorbWord
      (tailWord c.data (wordCnt c.word) (s.lenb + BitVec.ofNat 8 (wordCnt c.word))) (wordCnt c.word)).finish
  | clear (he : firstError c.word s.phase = none) (hop : wordOp c.word = 4) : CommandOutcome c s s.clearRegs

section
variable {c : Command} (h : ¬ wordIllegal c.word = true) (s : State)
include h

theorem execInit_outcome (hop : wordOp c.word = 1) :
    ∃ t, exec (.init (wordCnt c.word) c.data) s = .next t ∧ CommandOutcome c s t := by
  have he := firstError_init h s.phase hop
  by_cases hc : wordCnt c.word = 16
  · exact ⟨_, hc ▸ execInit_ok c.data s, .init (by rw [he, if_neg (not_not.mpr hc)]) hop⟩
  · exact ⟨_, execInit_keyLen hc c.data s, .failed (by rw [he, if_pos hc])⟩

theorem execBlock_outcome (hop : wordOp c.word = 2) :
    ∃ t, exec (.block (wordCnt c.word) c.data) s = .next t ∧ CommandOutcome c s t := by
  have he := firstError_block h s.phase hop
  by_cases hp : s.phase = .absorb
  · rw [if_neg (not_not.mpr hp)] at he
    by_cases hc : wordCnt c.word = 8
    · exact ⟨_, hc ▸ execBlock_ok hp c.data, .block (by rw [he, if_neg (not_not.mpr hc)]) hop⟩
    · exact ⟨_, execBlock_cnt hp hc c.data, .failed (by rw [he, if_pos hc])⟩
  · exact ⟨_, execBlock_seq hp _ c.data, .failed (by rw [he, if_pos hp])⟩

theorem execLast_outcome (hop : wordOp c.word = 3) :
    ∃ t, exec (.last (wordCnt c.word) c.data) s = .next t ∧ CommandOutcome c s t := by
  have he := firstError_last h s.phase hop
  by_cases hp : s.phase = .absorb
  · rw [if_neg (not_not.mpr hp)] at he
    by_cases hc : 7 < wordCnt c.word
    · exact ⟨_, execLast_cnt hp hc c.data, .failed (by rw [he, if_pos hc])⟩
    · exact ⟨_, execLast_ok hp (not_lt.mp hc) c.data, .last (by rw [he, if_neg hc]) hop⟩
  · exact ⟨_, execLast_seq hp _ c.data, .failed (by rw [he, if_pos hp])⟩

end

theorem execute_outcome (c : Command) (s : State) : ∃ t, execute c s = .next t ∧ CommandOutcome c s t := by
  by_cases hi : wordIllegal c.word = true
  · obtain ⟨why, hd⟩ := decode_of_wordIllegal hi
    exact ⟨_, execute_of_illegal hd s, .failed (firstError_of_wordIllegal hi _)⟩
  obtain ⟨hop, hd⟩ | ⟨hop, hd⟩ | ⟨hop, hd⟩ | ⟨hop, hd⟩ | ⟨hop, hd⟩ := decode_of_not_wordIllegal hi <;>
    rw [execute_of_decode hd]
  · exact ⟨_, execNop_eq s, .nop (firstError_nop hi _ hop) hop⟩
  · exact execInit_outcome hi s hop
  · exact execBlock_outcome hi s hop
  · exact execLast_outcome hi s hop
  · exact ⟨_, execClear_eq s, .clear (firstError_clear hi _ hop) hop⟩

/-- The step of an executing core completes its command. -/
theorem step_outcome {s : State} {c : Command} (h : Executing c s) (hn : ClockNext s) :
    ∃ t, step s = .next t ∧ CommandOutcome c { s with latch := none, host := s.host.tail } t := by
  rw [step_complete h hn]
  exact execute_outcome c _

namespace CommandOutcome

variable {c : Command} {s t : State}

theorem eq_raise (h : CommandOutcome c s t) {e : ErrCode} (he : firstError c.word s.phase = some e) :
    t = s.raise e := by
  cases h with
  | failed he' => rw [Option.some.inj (he.symm.trans he')]
  | nop he' | init he' | block he' | last he' | clear he' => rw [he'] at he; cases he

theorem phase_eq (h : CommandOutcome c s t) :
    t.phase =
      (if (firstError c.word s.phase).isSome then .error
       else if wordOp c.word = 1 then .absorb
       else if wordOp c.word = 3 then .done
       else if wordOp c.word = 4 then .idle
       else s.phase) := by
  cases h with
  | failed he => simp [he]
  | nop he hop | init he hop | block he hop | last he hop | clear he hop => simp [he, hop]

theorem lenb_toNat (h : CommandOutcome c s t) :
    t.lenb.toNat =
      (if (firstError c.word s.phase).isSome then s.lenb.toNat
       else if wordOp c.word = 1 ∨ wordOp c.word = 4 then 0
       else if wordOp c.word = 2 then (s.lenb.toNat + 8) % 256
       else if wordOp c.word = 3 then (s.lenb.toNat + wordCnt c.word) % 256
       else s.lenb.toNat) := by
  cases h with
  | failed he => simp [he]
  | nop he hop | init he hop | block he hop | last he hop | clear he hop => simp [he, hop]

theorem tag_eq (h : CommandOutcome c s t) :
    t.tag =
      (if (firstError c.word s.phase).isSome then s.tag
       else if wordOp c.word = 1 ∨ wordOp c.word = 4 then 0
       else if wordOp c.word = 3 then fold t.v
       else s.tag) := by
  cases h with
  | failed he => simp [he]
  | nop he hop | init he hop | block he hop | last he hop | clear he hop => simp [he, hop]

theorem err_of_success (h : CommandOutcome c s t) (he : firstError c.word s.phase = none) :
    t.err = if wordOp c.word = 1 ∨ wordOp c.word = 4 then 0 else s.err := by
  cases h with
  | failed he' => rw [he'] at he; cases he
  | nop _ hop | init _ hop | block _ hop | last _ hop | clear _ hop => simp [hop, errNone]

end CommandOutcome

end Sys2Proof.Machine
end

section
/-! SUPPORT. The fields of the STATUS word, one by one (10_state R26). -/

namespace Sys2Proof.Machine

theorem status_phase (s : State) : s.status.extractLsb' 0 2 = s.phase.code :=
  BitVec.extractLsb'_append_eq_right

theorem status_tagValid (s : State) : s.status.getLsbD 2 = s.tagValid := by
  simp only [State.status, BitVec.getLsbD_append]
  simp

theorem status_busy (s : State) : s.status.getLsbD 3 = s.busy := by
  simp only [State.status, BitVec.getLsbD_append]
  simp

theorem status_err (s : State) : s.status.extractLsb' 4 3 = s.err := by
  simp only [State.status, BitVec.extractLsb'_append_eq_of_le, Nat.reduceLeDiff, Nat.reduceSub,
    BitVec.extractLsb'_append_eq_right]

theorem status_bit7 (s : State) : s.status.getLsbD 7 = false := by
  simp only [State.status, BitVec.getLsbD_append]
  simp

theorem status_lenb (s : State) : s.status.extractLsb' 8 8 = s.lenb := by
  simp only [State.status, BitVec.extractLsb'_append_eq_of_le, Nat.reduceLeDiff, Nat.reduceSub,
    BitVec.extractLsb'_eq_self]

theorem tagValid_iff (s : State) : s.tagValid = true ↔ s.phase = .done := decide_eq_true_iff

theorem busy_iff (s : State) : s.busy = true ↔ (∃ c, s.latch = some c) ∧ s.rst = false := by
  rw [State.busy, Bool.and_eq_true, Option.isSome_iff_exists, Bool.not_eq_true']

theorem resetCore_status (s : State) : s.resetCore.status = 0x0000 := by
  simp [State.status, State.busy, State.tagValid, Phase.code]

end Sys2Proof.Machine
end

section
/-! PROOFS. The registers over all commands and after reset, and the STATUS word (10_state R21 to R26). -/

namespace Sys2Proof.Machine

/-- Settles O26: each outcome of a command writes the phase that R23 gives it. -/
theorem phaseAfterEveryCommand : Obligations.PhaseAfterEveryCommand := by
  refine ⟨fun s c hx hn => ?_, fun s hr hn => ⟨_, step_reset hr hn, resetCore_phase _⟩, rfl, rfl, rfl, rfl⟩
  obtain ⟨t, ht, ho⟩ := step_outcome hx hn
  exact ⟨t, ht, ho.phase_eq⟩

/-- Settles O27: each outcome of a command advances `lenb` as R21 says, and STATUS shows the sum. -/
theorem lengthCounterAfterEveryCommand : Obligations.LengthCounterAfterEveryCommand := by
  refine ⟨fun s c hx hn => ?_, fun s hr hn => ⟨_, step_reset hr hn, resetCore_lenb _⟩⟩
  obtain ⟨t, ht, ho⟩ := step_outcome hx hn
  exact ⟨t, ht, status_lenb t, ho.lenb_toNat⟩

/-- Settles O28: only LAST, INIT and CLEAR write the tag; LAST keeps the finalized words it folds. -/
theorem tagRegisterAfterEveryCommand : Obligations.TagRegisterAfterEveryCommand := by
  refine ⟨fun s c hx hn => ?_, fun s hr hn => ⟨_, step_reset hr hn, resetCore_tag _⟩⟩
  obtain ⟨t, ht, ho⟩ := step_outcome hx hn
  exact ⟨t, ht, rfl, ho.tag_eq⟩

/-- Settles O29: a failing command is one error entry; of the successful ones INIT and CLEAR write `err`. -/
theorem errorRegisterAfterEveryCommand : Obligations.ErrorRegisterAfterEveryCommand := by
  refine ⟨fun s c hx hn => ?_, fun s hr hn => ⟨_, step_reset hr hn, resetCore_err _⟩⟩
  obtain ⟨t, ht, ho⟩ := step_outcome hx hn
  refine ⟨t, ht, ?_⟩
  cases he : firstError c.word s.phase with
  | some e => rw [ho.eq_raise he]; exact raise_err e _
  | none => exact ho.err_of_success he

/-- Settles O30: field by field, from the layout of the STATUS word. -/
theorem statusWordFields : Obligations.StatusWordFields := by
  refine ⟨fun s => ⟨?phase, ?tagValid, ?busy, status_err s, status_bit7 s, status_lenb s⟩,
    fun s hr hn => ⟨_, step_reset hr hn, resetCore_status _⟩⟩
  case phase => rw [status_phase]; cases s.phase <;> rfl
  case tagValid => rw [status_tagValid]; exact tagValid_iff s
  case busy => rw [status_busy]; exact busy_iff s

end Sys2Proof.Machine
end

section
/-! SUPPORT. Words cut from a data operand and their bytes, and the word of LAST byte by byte (20_memory R42 to R44). -/

namespace Sys2Proof.Machine

/-- Byte `i` of the word cut from the operand at lane `j`. -/
theorem byteOf_extractLsb' (d : BitVec 128) (j : Nat) {i : Nat} (hi : i < 8) :
    byteOf (d.extractLsb' (8 * j) 64) i = lane d (j + i) := by
  apply BitVec.eq_of_getLsbD_eq
  intro k hk
  have hlt : 8 * i + k < 64 := by omega
  have hpos : 8 * j + (8 * i + k) = 8 * (j + i) + k := by omega
  rw [getLsbD_byteOf, getLsbD_lane, BitVec.getLsbD_extractLsb', hpos, decide_eq_true hlt, Bool.true_and]

/-- Packing eight adjacent lanes little-endian cuts their bits from the operand (41_decomposer R90). -/
theorem le64_lanes (d : BitVec 128) (j : Nat) :
    le64 (lane d j) (lane d (j + 1)) (lane d (j + 2)) (lane d (j + 3))
      (lane d (j + 4)) (lane d (j + 5)) (lane d (j + 6)) (lane d (j + 7)) = d.extractLsb' (8 * j) 64 := by
  apply word_eq_of_bytes
  intro i hi
  rw [byteOf_le64 _ _ _ _ _ _ _ _ i hi, byteOf_extractLsb' d j hi]
  interval_cases i <;> rfl

theorem keyLow_eq_extractLsb' (d : BitVec 128) : keyLow d = d.extractLsb' 0 64 := le64_lanes d 0

theorem keyHigh_eq_extractLsb' (d : BitVec 128) : keyHigh d = d.extractLsb' 64 64 := le64_lanes d 8

theorem blockWord_eq_extractLsb' (d : BitVec 128) : blockWord d = d.extractLsb' 0 64 := le64_lanes d 0

theorem byteOf_keyLow (d : BitVec 128) {i : Nat} (hi : i < 8) : byteOf (keyLow d) i = lane d i := by
  rw [keyLow_eq_extractLsb', byteOf_extractLsb' d 0 hi, Nat.zero_add]

theorem byteOf_keyHigh (d : BitVec 128) {i : Nat} (hi : i < 8) : byteOf (keyHigh d) i = lane d (8 + i) := by
  rw [keyHigh_eq_extractLsb', byteOf_extractLsb' d 8 hi]

theorem byteOf_blockWord (d : BitVec 128) {i : Nat} (hi : i < 8) : byteOf (blockWord d) i = lane d i :=
  byteOf_keyLow d hi

/-- The word of LAST byte by byte: the trailing bytes, zeros, the length byte on top (41_decomposer R92). -/
theorem byteOf_tailWord (d : BitVec 128) {n : Nat} (hn : n ≤ 7) (len8 : BitVec 8) (i : Nat) :
    byteOf (tailWord d n len8) i = if i < n then lane d i else if i = 7 then len8 else 0 := by
  rw [tailWord, byteOf_or, byteOf_tailBytes d n i (by omega), byteOf_byteAtPos len8 7 i (by omega)]
  by_cases hi : i < n
  · have h7 : i ≠ 7 := by omega
    simp [hi, h7]
  · simp [hi]

theorem digestBytes_getElem? (tag : Word) {i : Nat} (hi : i < 8) : (digestBytes tag)[i]? = some (byteOf tag i) := by
  simp [digestBytes, hi]

end Sys2Proof.Machine
end

section
/-! SUPPORT. The handshake step by step: the accepting edge, the latch over an edge, the completion on the state it starts
from, and what the host may do to the command pins (20_memory R55). -/

namespace Sys2Proof.Machine

theorem cmdReady_iff (s : State) : s.cmdReady = true ↔ s.latch = none ∧ s.rst = false := by
  rw [State.cmdReady, Bool.and_eq_true, Option.isNone_iff_eq_none, Bool.not_eq_true']

/-- The accepting edge: the step latches the command that the host presents. -/
theorem step_accept {s : State} {c : Command} (hn : ClockNext s) (hl : s.live = true) (hr : s.rst = false)
    (hc : s.latch = none) (ho : s.offered = some c) :
    step s = .next (State.accept c { s with host := s.host.tail }) := by
  rw [step_of_clockNext hn]
  exact clockEdge_accept (s := { s with host := s.host.tail }) hl hr hc ho

/-- A command in the latch after an edge that began with an empty latch is the one the host presented. -/
theorem offered_of_latch_filled {s t : State} {c : Command} (hn : ClockNext s) (h : step s = .next t)
    (hs : s.latch = none) (ht : t.latch = some c) : s.rst = false ∧ s.offered = some c := by
  rw [step_of_clockNext hn] at h
  obtain ⟨-, rfl⟩ | ⟨_, ⟨-, -, hc⟩, -⟩ | ⟨_, -, hr, -, ho, rfl⟩ | ⟨-, rfl⟩ := clockEdge_cases h
  · cases ht
  · cases hs.symm.trans hc
  · exact ⟨hr, ho.trans ht⟩
  · cases hs.symm.trans ht

/-- Completion, compared with the command on the state before the edge: besides the registers it only empties the latch
and takes the edge from the host's plan. -/
theorem step_complete_eq_execute {s : State} {c : Command} (h : Executing c s) (hn : ClockNext s) :
    ∃ t, step s = .next t ∧ t = { s with toRegs := t.toRegs, latch := none, host := s.host.tail } ∧
      execute c s = .next { s with toRegs := t.toRegs } := by
  obtain ⟨t, ht⟩ := execute_answers_next c { s with latch := none, host := s.host.tail }
  exact ⟨t, (step_complete h hn).trans ht, execute_frame ht, execute_regs_only ht s⟩

/-- The next act of the host's plan, on the state without it in the plan. -/
theorem step_of_host_cons {s : State} {a : HostAct} {plan : List HostAct} (hh : s.host = a :: plan) :
    step s = State.hostAct a { s with host := plan } := by
  simp [step, State.event, hh]

/-- After the accepting edge the host may drive the command pins to anything. -/
theorem driveCommand_of_taken {s : State} (h : s.taken = true) (o : Option Command) :
    s.driveCommand o = .next { s with offered := o, taken := false } := if_pos (.inr h)

/-- After the accepting edge the host may present another command. -/
theorem step_offer_of_taken {s : State} {d : Command} {plan : List HostAct} (hh : s.host = .offer d :: plan)
    (hd : s.offered ≠ some d) (ht : s.taken = true) :
    step s = .next { s with offered := some d, taken := false, host := plan } := by
  rw [step_of_host_cons hh, State.hostAct, State.offerCommand, if_neg hd]
  exact driveCommand_of_taken (s := { s with host := plan }) ht (some d)

/-- After the accepting edge the host may drop `cmd_valid`. -/
theorem step_withdraw_of_taken {s : State} {plan : List HostAct} (hh : s.host = .withdraw :: plan)
    (ho : s.offered ≠ none) (ht : s.taken = true) :
    step s = .next { s with offered := none, taken := false, host := plan } := by
  rw [step_of_host_cons hh, State.hostAct, State.withdrawCommand, if_neg ho]
  exact driveCommand_of_taken (s := { s with host := plan }) ht none

end Sys2Proof.Machine
end

section
/-! PROOFS. Bytes and words on the ports, and the transfer of a command (20_memory R43, R55). -/

namespace Sys2Proof.Machine

/-- Settles O6: each word is packed from its lanes in order, so it is the slice of the operand they fill. -/
theorem bytesAndWordsAreLittleEndian : Obligations.BytesAndWordsAreLittleEndian := by
  refine fun d tag => ⟨fun i hi => ⟨byteOf_keyLow d hi, byteOf_keyHigh d hi, byteOf_blockWord d hi, ?digest⟩,
    fun n len8 hn i hi => ?tail, blockWord_eq_extractLsb' d, keyLow_eq_extractLsb' d, keyHigh_eq_extractLsb' d⟩
  case digest => exact digestBytes_getElem? tag hi
  case tail => rw [byteOf_tailWord d hn, if_pos hi]

/-- Settles O52: the latch fills at the accepting edge alone; completion empties it and writes the registers the command
writes; the mark `taken` frees the host's pins. -/
theorem transferFollowsTheHandshake : Obligations.TransferFollowsTheHandshake := by
  refine ⟨fun s t c hl hn h => ⟨fun ⟨hs, ht⟩ => ?latchFilled, fun ⟨hr, ho, hy⟩ => ?conditionsMet⟩,
    fun s c hl hn hr ho hy => ?acceptance, fun s c hx hn => ?completion,
    fun s c d plan ho ht => ⟨fun hne hh => ?change, fun hh => ?drop⟩⟩
  case latchFilled =>
    obtain ⟨hr, ho⟩ := offered_of_latch_filled hn h hs ht
    exact ⟨hr, ho, (cmdReady_iff s).mpr ⟨hs, hr⟩⟩
  case conditionsMet =>
    obtain ⟨hc, -⟩ := (cmdReady_iff s).mp hy
    cases (step_accept hn hl hr hc ho).symm.trans h
    exact ⟨hc, rfl⟩
  case acceptance =>
    obtain ⟨hc, -⟩ := (cmdReady_iff s).mp hy
    exact ⟨_, step_accept hn hl hr hc ho, rfl, rfl, rfl, ho, rfl⟩
  case completion =>
    obtain ⟨t, ht, hframe, hx'⟩ := step_complete_eq_execute hx hn
    obtain ⟨-, hr, hc⟩ := hx
    refine ⟨t, ht, ?_, ?_, ?_, ?_⟩
    · rw [hx', hframe, ← hc]
    · rw [hframe]
    · rw [hframe]; exact (cmdReady_iff _).mpr ⟨rfl, hr⟩
    · rw [hframe]
  case change => exact step_offer_of_taken hh (by simp [ho, hne]) ht
  case drop => exact step_withdraw_of_taken hh (by simp [ho]) ht

end Sys2Proof.Machine
end

section
/-! PROOFS. The decoder on a command word read as a number (30_encoding R66). -/

namespace Sys2Proof.Machine

/-- The illegal words by the numbers of their fields, in the order of R66's checks. -/
theorem wordIllegal_iff_fields (w : BitVec 32) :
    wordIllegal w = true ↔
      w.toNat / 16 % 16 ≠ 0 ∨ w.toNat / 65536 ≠ 0 ∨ 5 ≤ wordOp w ∨
        ((wordOp w = 0 ∨ wordOp w = 4) ∧ wordCnt w ≠ 0) := by
  rw [wordIllegal_iff, ne_eq, rsv0Field_eq_zero, ne_eq, rsv1Field_eq_zero, ne_eq, ← wordCnt_eq_zero, or_assoc]

/-- Settles O4: an illegal word is rejected; any other is one of the five commands, chosen by its opcode. -/
theorem decoderChecksReservedBitsOpcodeAndCount : Obligations.DecoderChecksReservedBitsOpcodeAndCount := by
  intro c op rsv0 cnt rsv1
  have hiff : wordIllegal c.word = true ↔
      rsv0 ≠ 0 ∨ rsv1 ≠ 0 ∨ 5 ≤ op ∨ ((op = 0 ∨ op = 4) ∧ cnt ≠ 0) := wordIllegal_iff_fields c.word
  split
  case isTrue hbad => exact decode_of_wordIllegal (hiff.mpr hbad)
  case isFalse hgood =>
    have hcmd := decode_of_not_wordIllegal (mt hiff.mp hgood)
    change (op = 0 ∧ _) ∨ (op = 1 ∧ _) ∨ (op = 2 ∧ _) ∨ (op = 3 ∧ _) ∨ (op = 4 ∧ _) at hcmd
    obtain ⟨hop, hd⟩ | ⟨hop, hd⟩ | ⟨hop, hd⟩ | ⟨hop, hd⟩ | ⟨hop, hd⟩ := hcmd <;> rw [hop] <;> exact hd

end Sys2Proof.Machine
end

section
/-! PROOFS. INIT: the key it loads, and the key lengths it rejects (40_init R80 to R83, 60_exceptions R162). -/

namespace Sys2Proof.Machine

/-- INIT's writes as one record update, the key halves cut from the operand (40_init R81, R82). -/
theorem loadKey_eq (d : BitVec 128) (s : State) :
    s.loadKey d = { s with
      v := initWords (d.extractLsb' 0 64) (d.extractLsb' 64 64), lenb := 0, tag := 0, err := 0, phase := .absorb } := by
  rw [← keyLow_eq_extractLsb', ← keyHigh_eq_extractLsb']
  rfl

/-- Settles O13: INIT with 16 loads the key, whose halves are the two words of the operand. -/
theorem initLoadsTheKey : Obligations.InitLoadsTheKey := by
  intro s data k0 k1
  rw [execInit_ok, loadKey_eq]
  rfl

/-- Settles O14: any other length is one error entry with KEYLEN. -/
theorem initRejectsOtherKeyLengths : Obligations.InitRejectsOtherKeyLengths :=
  fun s _ data hcnt => execInit_keyLen hcnt data s

end Sys2Proof.Machine
end

section
/-! SUPPORT. The words of a message: how many, and the final word byte by byte (41_decomposer R93). -/

namespace Sys2Proof.Machine

theorem lePack_cons (b : Byte) (bs : List Byte) : lePack (b :: bs) = byteAtPos b 0 ||| lePack bs <<< 8 := by
  simp [lePack, byteAtPos]

theorem byteOf_shiftLeft_zero (w : Word) : byteOf (w <<< 8) 0 = 0 := by
  apply BitVec.eq_of_getLsbD_eq
  intro k hk
  rw [getLsbD_byteOf, BitVec.getLsbD_shiftLeft]
  simp [hk]

/-- A shift by eight bits moves every byte up one position. -/
theorem byteOf_shiftLeft_succ (w : Word) {i : Nat} (hi : i + 1 < 8) : byteOf (w <<< 8) (i + 1) = byteOf w i := by
  apply BitVec.eq_of_getLsbD_eq
  intro k hk
  have hlt : 8 * (i + 1) + k < 64 := by omega
  have hge : ¬ 8 * (i + 1) + k < 8 := by omega
  have hpos : 8 * (i + 1) + k - 8 = 8 * i + k := by omega
  rw [getLsbD_byteOf, getLsbD_byteOf, BitVec.getLsbD_shiftLeft, hpos]
  simp [hlt, hge]

/-- Bytes packed from the low end stand at their positions, with zeros after them. -/
theorem byteOf_lePack (bs : List Byte) {i : Nat} (hi : i < 8) : byteOf (lePack bs) i = bs.getD i 0 := by
  induction bs generalizing i with
  | nil => exact byteOf_zero i
  | cons b bs ih =>
    rw [lePack_cons, byteOf_or, byteOf_byteAtPos b 0 i (by omega)]
    cases i with
    | zero => simp [byteOf_shiftLeft_zero]
    | succ i => rw [byteOf_shiftLeft_succ _ hi, ih (by omega)]; simp

/-- The length byte of R93, `(L mod 256) << 56`, is the byte `L` at position 7. -/
theorem lengthByte_eq_byteAtPos (n : Nat) : BitVec.ofNat 64 (n % 256) <<< 56 = byteAtPos (BitVec.ofNat 8 n) 7 := by
  have hbyte : BitVec.ofNat 64 (n % 256) = (BitVec.ofNat 8 n).setWidth 64 := by
    apply BitVec.eq_of_toNat_eq
    simp
  rw [hbyte, byteAtPos]

/-- The final word byte by byte: the trailing bytes, zeros, the length byte on top (41_decomposer R93). -/
theorem byteOf_finalWord (msg : List Byte) {i : Nat} (hi : i < 8) :
    byteOf (finalWord msg) i =
      if i = 7 then BitVec.ofNat 8 msg.length else (msg.drop (8 * (msg.length / 8))).getD i 0 := by
  rw [finalWord, lengthByte_eq_byteAtPos, byteOf_or, byteOf_lePack _ hi, byteOf_byteAtPos _ 7 i (by omega)]
  by_cases h7 : i = 7
  · have hout : (msg.drop (8 * (msg.length / 8))).length ≤ 7 := by rw [List.length_drop]; omega
    rw [if_pos h7, if_pos h7, h7, List.getD_eq_default _ _ hout]
    exact BitVec.zero_or
  · rw [if_neg h7, if_neg h7]
    exact BitVec.or_zero

/-- Without trailing bytes the final word is its length byte alone (41_decomposer R96). -/
theorem finalWord_of_length_mod_eight {msg : List Byte} (h : msg.length % 8 = 0) :
    finalWord msg = BitVec.ofNat 64 (msg.length % 256 * 2 ^ 56) := by
  have hdrop : msg.drop (8 * (msg.length / 8)) = [] := List.drop_eq_nil_of_le (by omega)
  calc finalWord msg
    _ = 0#64 ||| BitVec.ofNat 64 (msg.length % 256) <<< 56 := by rw [finalWord, hdrop]; rfl
    _ = BitVec.ofNat 64 (msg.length % 256 * 2 ^ 56) := by
      rw [BitVec.zero_or, BitVec.shiftLeft_eq_mul_twoPow, BitVec.ofNat_mul]; rfl

@[simp] theorem length_words (msg : List Byte) : (words msg).length = msg.length / 8 + 1 := by
  simp [words]

@[simp] theorem getLast?_words (msg : List Byte) : (words msg).getLast? = some (finalWord msg) :=
  List.getLast?_concat

end Sys2Proof.Machine
end

section
/-! PROOFS. The decomposer: the final word, and the words of a message (41_decomposer R92, R93, R96). -/

namespace Sys2Proof.Machine

/-- Settles O7: each range of byte positions falls into one case of the word's bytes. -/
theorem tailWordHoldsTailAndLengthByte : Obligations.TailWordHoldsTailAndLengthByte := by
  refine fun d n len8 hn => ⟨fun i hi => ?tail, fun i hni hi => ?zeros, ?length⟩
  case tail => rw [byteOf_tailWord d hn, if_pos hi]
  case zeros => rw [byteOf_tailWord d hn, if_neg (by omega), if_neg (by omega)]
  case length => rw [byteOf_tailWord d hn, if_neg (by omega), if_pos rfl]

/-- Settles O49: the final word is emitted for every message; without trailing bytes it is the length byte alone. -/
theorem wordsOfAMessage : Obligations.WordsOfAMessage := by
  refine ⟨fun msg => ⟨length_words msg, ?topByte, fun h => ?lengthOnly⟩,
    fun msg h => ⟨?count8, ?last8⟩, fun msg h => ⟨?count16, ?last16⟩, ?empty⟩
  case topByte => rw [byteOf_finalWord msg (by omega), if_pos rfl]
  case lengthOnly => rw [getLast?_words, finalWord_of_length_mod_eight h]
  case count8 | count16 => rw [length_words, h]
  case last8 | last16 => rw [getLast?_words, finalWord_of_length_mod_eight (by omega), h]; rfl
  case empty => exact congrArg (fun w => [w]) (finalWord_of_length_mod_eight (msg := []) rfl)

end Sys2Proof.Machine
end

section
/-! SUPPORT. The rotation of the round: it is the library's, and where it moves each bit (42_sipround R101). -/

namespace Sys2Proof.Machine

@[simp] theorem rotl64_eq_rotateLeft (x : Word) {n : Nat} (hn : n < 64) : rotl64 x n = x.rotateLeft n := by
  rw [rotl64, BitVec.rotateLeft_def, Nat.mod_eq_of_lt hn]

/-- The bits below `n` are those that wrapped around; the others moved up by `n`. -/
theorem getLsbD_rotl64 (x : Word) {n i : Nat} (hn : n < 64) (hi : i < 64) :
    (rotl64 x n).getLsbD i = x.getLsbD ((i + 64 - n) % 64) := by
  rw [rotl64_eq_rotateLeft x hn, BitVec.getLsbD_rotateLeft_of_le hn]
  by_cases h : i < n
  · have hwrap : (i + 64 - n) % 64 = 64 - n + i := by omega
    rw [hwrap, decide_eq_true h, cond_true]
  · have hmove : (i + 64 - n) % 64 = i - n := by omega
    rw [hmove, decide_eq_false h, cond_false, decide_eq_true hi, Bool.true_and]

/-- Each bit comes from the same place of the other half. -/
theorem rotl64_32_eq_swap (x : Word) : rotl64 x 32 = x.extractLsb' 0 32 ++ x.extractLsb' 32 32 := by
  refine BitVec.eq_of_getLsbD_eq fun i hi => ?_
  rw [getLsbD_rotl64 x (by omega) hi, BitVec.getLsbD_append]
  by_cases h : i < 32
  · have hhigh : (i + 64 - 32) % 64 = 32 + i := by omega
    rw [hhigh, if_pos h, BitVec.getLsbD_extractLsb', decide_eq_true h, Bool.true_and]
  · have hlow : (i + 64 - 32) % 64 = 0 + (i - 32) := by omega
    rw [hlow, if_neg h, BitVec.getLsbD_extractLsb', decide_eq_true (by omega), Bool.true_and]

end Sys2Proof.Machine
end

section
/-! PROOFS. The rotation and the round (42_sipround R101, R102). -/

namespace Sys2Proof.Machine

/-- Settles O9: the bit rule holds at every rotation amount, and at 32 it says that the halves change places. -/
theorem rotateLeftMovesEachBit : Obligations.RotateLeftMovesEachBit :=
  fun x _ _ _ hn hi => ⟨getLsbD_rotl64 x (by omega) hi, rotl64_32_eq_swap x⟩

/-- Settles O10: the two halves run one after the other, and each of the six rotations is the library's. -/
theorem sipRoundIsTheEightSteps : Obligations.SipRoundIsTheEightSteps := by
  intro v0 v1 v2 v3
  simp only [sipRound, sipHalfA, sipHalfB, rotl64_eq_rotateLeft, Nat.reduceLT]

end Sys2Proof.Machine
end

section
/-! SUPPORT. The data path in rounds: what `Compress` and `Finalize` do to any four words (42_sipround R103,
43_compression R110, 44_finalization R120). -/

namespace Sys2Proof.Machine

@[simp] theorem sipRounds_zero (v : StateWords) : sipRounds 0 v = v := rfl

@[simp] theorem sipRounds_succ (k : Nat) (v : StateWords) : sipRounds (k + 1) v = sipRounds k (sipRound v) := rfl

theorem sipRounds_cRounds (v : StateWords) : sipRounds cRounds v = sipRound (sipRound v) := by
  simp [cRounds]

theorem sipRounds_dRounds (v : StateWords) :
    sipRounds dRounds v = sipRound (sipRound (sipRound (sipRound v))) := by
  simp [dRounds]

theorem compress_eq_two_rounds (v : StateWords) (m : Word) :
    compress v m =
      { sipRound (sipRound { v with v3 := v.v3 ^^^ m }) with
        v0 := (sipRound (sipRound { v with v3 := v.v3 ^^^ m })).v0 ^^^ m } := by
  simp only [compress, sipRounds_cRounds]

theorem finalize_eq_four_rounds (v : StateWords) :
    finalize v = sipRound (sipRound (sipRound (sipRound { v with v2 := v.v2 ^^^ 0xff }))) := by
  rw [finalize, sipRounds_dRounds, finalXor]

end Sys2Proof.Machine
end

section
/-! PROOFS. Compression, finalization and the fold (43_compression R110, 44_finalization R120, R121). -/

namespace Sys2Proof.Machine

/-- Settles O11: the round counts unfold to two and four rounds; the fold is the definition. -/
theorem compressFinalizeAndFold : Obligations.CompressFinalizeAndFold := by
  refine fun v0 v1 v2 v3 m => ⟨?compress, ?finalize, ?fold⟩
  case compress => exact compress_eq_two_rounds ⟨v0, v1, v2, v3⟩ m
  case finalize => exact finalize_eq_four_rounds ⟨v0, v1, v2, v3⟩
  case fold => rw [fold]

end Sys2Proof.Machine
end

section
/-! SUPPORT. The tag output ports, and a hex digest character by character: what its characters are, and what a reader
recovers from them (46_tag_output R150 to R154). -/

namespace Sys2Proof.Machine

theorem tagOut_of_done {s : State} (h : s.phase = .done) : s.tagOut = s.tag := if_pos h

theorem tagOut_of_ne_done {s : State} (h : s.phase ≠ .done) : s.tagOut = 0 := if_neg h

theorem tagByte_eq_byteOf (s : State) : s.tagByte = byteOf s.tagOut s.tagBsel.toNat := rfl

/-- Each select shows the byte of `tag_out` that it names (46_tag_output R151). -/
theorem tagByte_select (s : State) {i : Nat} (hi : i < 8) :
    ({ s with tagBsel := BitVec.ofNat 3 i } : State).tagByte = byteOf s.tagOut i := by
  rw [tagByte_eq_byteOf, BitVec.toNat_ofNat, Nat.mod_eq_of_lt hi]
  rfl

/-- A nibble of a byte of a word, cut from the word. -/
theorem byteOf_nibble (w : Word) (i : Nat) {k : Nat} (hk : k ≤ 4) :
    (byteOf w i).extractLsb' k 4 = w.extractLsb' (8 * i + k) 4 := by
  apply BitVec.eq_of_getLsbD_eq
  intro j hj
  have hlt : k + j < 8 := by omega
  rw [BitVec.getLsbD_extractLsb', getLsbD_byteOf, BitVec.getLsbD_extractLsb', decide_eq_true hlt, Bool.true_and,
    Nat.add_assoc]

/-- Packing the bytes of a word little-endian gives the word back. -/
theorem le64_byteOf (w : Word) :
    le64 (byteOf w 0) (byteOf w 1) (byteOf w 2) (byteOf w 3) (byteOf w 4) (byteOf w 5) (byteOf w 6) (byteOf w 7) = w := by
  apply word_eq_of_bytes
  intro i hi
  rw [byteOf_le64 _ _ _ _ _ _ _ _ i hi]
  interval_cases i <;> rfl

theorem length_digestBytes (tag : Word) : (digestBytes tag).length = 8 := by
  simp [digestBytes]

/-- Every nibble has its digit in the table, so the default of `nibbleChar` is never taken. -/
theorem hexDigits_getElem?_toNat (x : BitVec 4) : hexDigits[x.toNat]? = some (nibbleChar x) := by
  have hx : x.toNat < hexDigits.length := x.isLt
  rw [nibbleChar, List.getD_eq_getElem _ _ hx, List.getElem?_eq_getElem hx]

/-- The sixteen digits are distinct, so a digit's place in the table is the nibble it stands for. -/
theorem nibbleValue_nibbleChar (x : BitVec 4) : nibbleValue (nibbleChar x) = x := by
  have hx : x.toNat < hexDigits.length := x.isLt
  have hnodup : hexDigits.Nodup := by decide
  rw [nibbleValue, nibbleChar, List.getD_eq_getElem _ _ hx, hnodup.idxOf_getElem, BitVec.ofNat_toNat,
    BitVec.setWidth_eq]

theorem nibbles_append (b : Byte) : b.extractLsb' 4 4 ++ b.extractLsb' 0 4 = b :=
  (BitVec.extractLsb'_append_extractLsb'_eq_extractLsb' (start₁ := 0) (len₁ := 4) rfl).trans BitVec.extractLsb'_eq_self

theorem length_flatMap_hex2 (bs : List Byte) : (bs.flatMap hex2).length = 2 * bs.length := by
  simp [List.length_flatMap, hex2, Nat.mul_comm]

/-- The characters of a rendered byte string come in pairs, the pair of byte `i` at `2i` and `2i + 1`. -/
theorem getElem?_flatMap_hex2 {bs : List Byte} {i : Nat} {b : Byte} (h : bs[i]? = some b) :
    (bs.flatMap hex2)[2 * i]? = some (nibbleChar (b.extractLsb' 4 4)) ∧
      (bs.flatMap hex2)[2 * i + 1]? = some (nibbleChar (b.extractLsb' 0 4)) := by
  induction bs generalizing i with
  | nil => cases h
  | cons a bs ih =>
    cases i with
    | zero => cases h; exact ⟨rfl, rfl⟩
    | succ i => exact ih h

theorem length_hexDigest (tag : Word) : (hexDigest tag).length = 16 := by
  rw [hexDigest, length_flatMap_hex2, length_digestBytes]

/-- The characters of digest byte `i` (46_tag_output R153). -/
theorem hexDigest_getElem? (tag : Word) {i : Nat} (hi : i < 8) :
    (hexDigest tag)[2 * i]? = some (nibbleChar ((byteOf tag i).extractLsb' 4 4)) ∧
      (hexDigest tag)[2 * i + 1]? = some (nibbleChar ((byteOf tag i).extractLsb' 0 4)) :=
  getElem?_flatMap_hex2 (digestBytes_getElem? tag hi)

/-- The reader recovers each digest byte from its two characters (46_tag_output R154). -/
theorem hexByte_hexDigest (tag : Word) {i : Nat} (hi : i < 8) : hexByte (hexDigest tag) i = byteOf tag i := by
  obtain ⟨hhigh, hlow⟩ := hexDigest_getElem? tag hi
  rw [hexByte, List.getD_eq_getElem?_getD, List.getD_eq_getElem?_getD, hhigh, hlow, Option.getD_some, Option.getD_some,
    nibbleValue_nibbleChar, nibbleValue_nibbleChar, nibbles_append]

theorem tagOfHex_hexDigest (tag : Word) : tagOfHex (hexDigest tag) = tag := by
  simp only [tagOfHex, hexByte_hexDigest, Nat.reduceLT, le64_byteOf]

end Sys2Proof.Machine
end

section
/-! PROOFS. The tag output: the byte shown at each select, and the hex digest (46_tag_output R151 to R154). -/

namespace Sys2Proof.Machine

/-- Settles O31: the select names one byte of `tag_out`, which is the tag in DONE and 0 elsewhere. -/
theorem tagByteShowsTheDigestByte : Obligations.TagByteShowsTheDigestByte := by
  intro s i hi t
  have hbyte : t.tagByte = byteOf s.tagOut i := tagByte_select s hi
  refine ⟨hbyte, fun hdone => ?done, fun hother => ?other⟩
  case done =>
    rw [hbyte, tagOut_of_done hdone]
    exact ⟨digestBytes_getElem? s.tag hi, rfl⟩
  case other => rw [hbyte, tagOut_of_ne_done hother]; exact byteOf_zero i

/-- Settles O32: each character is the digit of one nibble, and each pair of digits gives its byte back. -/
theorem tagIsRecoveredFromItsHexDigest : Obligations.TagIsRecoveredFromItsHexDigest := by
  refine fun tag => ⟨length_hexDigest tag, fun i hi => ?characters, tagOfHex_hexDigest tag⟩
  case characters =>
    have hdigits : "0123456789abcdef".toList = hexDigits := by decide
    obtain ⟨hhigh, hlow⟩ := hexDigest_getElem? tag hi
    rw [hdigits, hexDigits_getElem?_toNat, hexDigits_getElem?_toNat, hhigh, hlow, byteOf_nibble tag i (le_refl 4),
      byteOf_nibble tag i (Nat.zero_le 4)]
    exact ⟨rfl, rfl⟩

end Sys2Proof.Machine
end

section
/-! SUPPORT. The command words that meet no error, written out, and error entry as one record update
(30_encoding R64, 60_exceptions R166 to R168). -/

namespace Sys2Proof.Machine

/-! ### The words that meet no error -/

theorem not_wordIllegal_of_firstError_none {w : BitVec 32} {p : Phase} (h : firstError w p = none) :
    ¬ wordIllegal w = true := by
  intro hi
  rw [firstError_of_wordIllegal hi] at h
  cases h

/-- A word that is not illegal has no bits but its count and its opcode. -/
theorem word_eq_of_fields {w : BitVec 32} {cnt op : Nat} (h : ¬ wordIllegal w = true) (hcnt : wordCnt w = cnt)
    (hop : wordOp w = op) : w = BitVec.ofNat 32 (cnt * 256 + op) := by
  have hfields := mt (wordIllegal_iff_fields w).mpr h
  have hnat : w.toNat = cnt * 256 + op := by
    unfold wordCnt at hcnt
    unfold wordOp at hop
    omega
  rw [← hnat, BitVec.ofNat_toNat, BitVec.setWidth_eq]

theorem wordCnt_eq_zero_of_noCount {w : BitVec 32} (h : ¬ wordIllegal w = true) (hop : wordOp w = 0 ∨ wordOp w = 4) :
    wordCnt w = 0 :=
  by_contra fun hcnt => h ((wordIllegal_iff_fields w).mpr (.inr (.inr (.inr ⟨hop, hcnt⟩))))

section
variable {w : BitVec 32} {p : Phase} (he : firstError w p = none)
include he

theorem word_of_nop (hop : wordOp w = 0) : w = 0x00000000 :=
  have hi := not_wordIllegal_of_firstError_none he
  word_eq_of_fields hi (wordCnt_eq_zero_of_noCount hi (.inl hop)) hop

theorem word_of_init (hop : wordOp w = 1) : w = 0x00001001 := by
  have hi := not_wordIllegal_of_firstError_none he
  rw [firstError_init hi p hop] at he
  have hcnt : wordCnt w = 16 := by_contra fun hne => by rw [if_pos hne] at he; cases he
  exact word_eq_of_fields hi hcnt hop

theorem word_of_clear (hop : wordOp w = 4) : w = 0x00000004 :=
  have hi := not_wordIllegal_of_firstError_none he
  word_eq_of_fields hi (wordCnt_eq_zero_of_noCount hi (.inr hop)) hop

/-- BLOCK and LAST meet no error in ABSORB alone (60_exceptions R164). -/
theorem phase_of_message_command (hop : wordOp w = 2 ∨ wordOp w = 3) : p = .absorb := by
  have hi := not_wordIllegal_of_firstError_none he
  by_contra hp
  obtain hop | hop := hop
  · rw [firstError_block hi p hop, if_pos hp] at he; cases he
  · rw [firstError_last hi p hop, if_pos hp] at he; cases he

end

/-! ### Error entry and exit -/

theorem code_ne_zero (e : ErrCode) : e.code ≠ 0 := by
  cases e <;> decide

/-- Error entry in ERROR overwrites `err` and nothing else (60_exceptions R169). -/
theorem raise_of_error {s : State} (h : s.phase = .error) (e : ErrCode) : s.raise e = { s with err := e.code } := by
  rw [State.raise, ← h]

theorem execute_of_wordIllegal {c : Command} (h : wordIllegal c.word = true) (s : State) :
    execute c s = .next (s.raise .illegal) := by
  obtain ⟨why, hd⟩ := decode_of_wordIllegal h
  exact execute_of_illegal hd s

/-- The step that completes a failing command, as one record update (60_exceptions R167). -/
theorem step_of_firstError {s : State} {c : Command} {e : ErrCode} (h : Executing c s) (hn : ClockNext s)
    (he : firstError c.word s.phase = some e) :
    step s = .next { s with err := e.code, phase := .error, latch := none, host := s.host.tail } := by
  obtain ⟨t, ht, ho⟩ := step_outcome h hn
  rw [ht, ho.eq_raise he]
  rfl

namespace CommandOutcome

variable {c : Command} {s t : State}

/-- A command that meets no error ends outside ERROR, but for NOP, which keeps the phase. -/
theorem phase_ne_error_or_nop (h : CommandOutcome c s t) (he : firstError c.word s.phase = none) :
    t.phase ≠ .error ∨ (c.word = 0x00000000 ∧ t = s) := by
  cases h with
  | failed he' => rw [he'] at he; cases he
  | nop _ hop => exact .inr ⟨word_of_nop he hop, rfl⟩
  | block _ hop => left; rw [absorbWord_phase, phase_of_message_command he (.inl hop)]; decide
  | init | last | clear => left; simp

/-- The commands that lead out of ERROR: a successful INIT and CLEAR (60_exceptions R168). -/
theorem leaves_error (h : CommandOutcome c s t) (hs : s.phase = .error) (ht : t.phase ≠ .error) :
    (c.word = 0x00001001 ∧ t.phase = .absorb ∧ t.err = 0) ∨ (c.word = 0x00000004 ∧ t.phase = .idle ∧ t.err = 0) := by
  cases h with
  | failed => exact absurd (raise_phase _ _) ht
  | nop => exact absurd hs ht
  | init he hop => exact .inl ⟨word_of_init he hop, rfl, rfl⟩
  | block he hop => cases hs.symm.trans (phase_of_message_command he (.inl hop))
  | last he hop => cases hs.symm.trans (phase_of_message_command he (.inr hop))
  | clear he hop => exact .inr ⟨word_of_clear he hop, rfl, rfl⟩

end CommandOutcome

end Sys2Proof.Machine
end

section
/-! PROOFS. Errors: which is raised, what raising it writes, and how ERROR is left (60_exceptions R163 to R169). -/

namespace Sys2Proof.Machine

/-- Settles O21: an illegal word meets ILLEGAL first, in every phase. -/
theorem illegalWordsRaiseIllegalInEveryPhase : Obligations.IllegalWordsRaiseIllegalInEveryPhase :=
  fun s c hx hn hfields =>
    step_of_firstError hx hn (firstError_of_wordIllegal ((wordIllegal_iff_fields c.word).mpr hfields) s.phase)

/-- Settles O22: a command that meets an error is one error entry with its code; reset comes before completion. -/
theorem firstErrorInPriorityOrderIsReported : Obligations.FirstErrorInPriorityOrderIsReported := by
  refine ⟨fun s c hx hn => ?_, fun s _ hr _ hn => ⟨_, step_reset hr hn, resetCore_err _, resetCore_phase _⟩⟩
  cases he : firstError c.word s.phase with
  | some e => exact ⟨_, step_of_firstError hx hn he, rfl, rfl⟩
  | none =>
    obtain ⟨t, ht, ho⟩ := step_outcome hx hn
    refine ⟨t, ht, (ho.phase_ne_error_or_nop he).imp_right fun ⟨hw, hts⟩ => ⟨hw, ?_⟩⟩
    rw [hts]

/-- Settles O23: the next state is one record update, and its outputs are read off phase ERROR and the code. -/
theorem failingCommandsWriteOnlyErrAndPhase : Obligations.FailingCommandsWriteOnlyErrAndPhase := by
  intro s c e hx hn he
  refine ⟨_, step_of_firstError hx hn he, rfl, ?tagOut, ?tagByte, status_err _, code_ne_zero e⟩
  case tagOut => exact tagOut_of_ne_done (by simp)
  case tagByte => rw [tagByte_eq_byteOf, tagOut_of_ne_done (by simp)]; exact byteOf_zero _

/-- Settles O24: of all a step can do, only reset, INIT and CLEAR write a phase other than ERROR; each failing command in
ERROR is one error entry there. -/
theorem errorIsLeftOnlyByInitClearOrReset : Obligations.ErrorIsLeftOnlyByInitClearOrReset := by
  refine ⟨fun s t _ hpower hs h ht => ?exits,
    fun s cnt data hs => ⟨execNop_eq s, ?block, ?last, fun hcnt => ?init, fun c hi => ?illegal⟩⟩
  case exits =>
    obtain ⟨hn, hr, rfl⟩ | ⟨c, hn, hx, hc⟩ | ⟨_, _, _, _, _, _, rfl⟩ | ⟨_, _, rfl⟩ | ⟨plan, hh, _⟩ | ⟨hregs, _⟩ :=
      step_changes h
    · exact .inr (.inr ⟨hr, hn, resetCore_toRegs _⟩)
    · obtain ⟨u, hu, ho⟩ := execute_outcome c { s with latch := none, host := s.host.tail }
      cases hu.symm.trans hc
      exact (ho.leaves_error hs ht).imp (fun hinit => ⟨c, hx, hn, hinit⟩) fun hclear => .inl ⟨c, hx, hn, hclear⟩
    · exact absurd hs ht
    · exact absurd hs ht
    · exact absurd hh (hpower plan)
    · exact absurd ((congrArg Regs.phase hregs).trans hs) ht
  case block => rw [execBlock_seq (by simp [hs]), raise_of_error hs]; rfl
  case last => rw [execLast_seq (by simp [hs]), raise_of_error hs]; rfl
  case init => rw [execInit_keyLen hcnt, raise_of_error hs]; rfl
  case illegal => rw [execute_of_wordIllegal hi, raise_of_error hs]; rfl

/-- Settles O19: in ABSORB the count is the next check, and error entry writes its code. -/
theorem byteCountsOutOfRangeRaiseCnt : Obligations.ByteCountsOutOfRangeRaiseCnt :=
  fun _ _ data hp => ⟨fun hcnt => execBlock_cnt hp hcnt data, fun hcnt => execLast_cnt hp hcnt data⟩

/-- Settles O20: BLOCK and LAST check the phase first; INIT writes KEYLEN or no error, and CLEAR no error. -/
theorem onlyBlockAndLastRaiseSeq : Obligations.OnlyBlockAndLastRaiseSeq := by
  have hnone : errNone ≠ 3 := by decide
  refine fun s cnt data => ⟨fun hp => ⟨execBlock_seq hp cnt data, execLast_seq hp cnt data⟩, execNop_eq s, ?_,
    _, execClear_eq s, hnone⟩
  by_cases hcnt : cnt = 16
  · exact ⟨_, hcnt ▸ execInit_ok data s, hnone⟩
  · exact ⟨_, execInit_keyLen hcnt data s, by simp [ErrCode.code]⟩

end Sys2Proof.Machine
end

section
/-! SUPPORT. The ways to stay in DONE and to leave it, and a command presented to a core with nothing on its command pins
(70_reset R184, R190). -/

namespace Sys2Proof.Machine

/-! ### DONE, and a command that completes in it -/

/-- NOP's word completes with nothing written (45_commands R130). -/
theorem execute_of_word_zero {c : Command} (h : c.word = 0x00000000) (s : State) : execute c s = .next s := by
  have hd : decode c = .command .nop := by
    rw [decode, h, if_neg (by decide)]
    exact if_pos (by decide)
  rw [execute_of_decode hd, execNop_eq]

/-- BLOCK and LAST outside ABSORB meet SEQ, whatever the count (60_exceptions R164, R166). -/
theorem firstError_seq {w : BitVec 32} {p : Phase} (hi : ¬ wordIllegal w = true) (hop : wordOp w = 2 ∨ wordOp w = 3)
    (hp : p ≠ .absorb) : firstError w p = some .seq := by
  obtain hop | hop := hop
  · rw [firstError_block hi p hop, if_pos hp]
  · rw [firstError_last hi p hop, if_pos hp]

/-- Every command but NOP leaves DONE. -/
theorem CommandOutcome.phase_ne_done {c : Command} {s t : State} (h : CommandOutcome c s t) (hs : s.phase = .done)
    (hw : c.word ≠ 0x00000000) : t.phase ≠ .done := by
  cases h with
  | failed | init | clear => simp
  | nop he hop => exact absurd (word_of_nop he hop) hw
  | block he hop => cases hs.symm.trans (phase_of_message_command he (.inl hop))
  | last he hop => cases hs.symm.trans (phase_of_message_command he (.inr hop))

/-- The registers of a state in DONE show its tag, whatever the latch and the pins hold. -/
theorem tag_shown_of_toRegs_eq {s t : State} (hs : s.phase = .done) (h : t.toRegs = s.toRegs) :
    t.phase = .done ∧ t.tagOut = s.tag := by
  have ht : t.phase = .done := (congrArg Regs.phase h).trans hs
  exact ⟨ht, (tagOut_of_done ht).trans (congrArg Regs.tag h)⟩

/-! ### Presenting a command -/

/-- Where `cmd_valid` is 0 the host may present a command, whatever the core is doing. -/
theorem step_offer_of_none {s : State} {d : Command} {plan : List HostAct} (hh : s.host = .offer d :: plan)
    (ho : s.offered = none) : step s = .next { s with offered := some d, taken := false, host := plan } := by
  rw [step_of_host_cons hh, State.hostAct, State.offerCommand, if_neg (by simp [ho])]
  exact if_pos (.inl ho)

end Sys2Proof.Machine
end

section
/-! PROOFS. Reset, the visible tag, and a command presented while another executes (70_reset R181 to R190). -/

namespace Sys2Proof.Machine

/-- Settles O33: of all a step can do, only reset and a command other than NOP write the registers in DONE while power
stays on; each of them writes another phase. -/
theorem tagIsVisibleUntilDoneIsLeft : Obligations.TagIsVisibleUntilDoneIsLeft := by
  refine ⟨fun s t _ hpower hs h => ?stays, fun s c hs hn hev => ?leaves⟩
  case stays =>
    obtain ⟨hn, hr, -⟩ | ⟨c, hn, hx, hc⟩ | ⟨_, _, _, _, _, _, rfl⟩ | ⟨_, _, rfl⟩ | ⟨plan, hh, _⟩ | ⟨hregs, _⟩ :=
      step_changes h
    · exact .inr (.inl ⟨hr, hn⟩)
    · by_cases hw : c.word = 0x00000000
      · cases (execute_of_word_zero hw _).symm.trans hc
        exact .inl (tag_shown_of_toRegs_eq hs rfl)
      · exact .inr (.inr ⟨c, hx, hn, hw⟩)
    · exact .inl (tag_shown_of_toRegs_eq hs rfl)
    · exact .inl (tag_shown_of_toRegs_eq hs rfl)
    · exact absurd hh (hpower plan)
    · exact .inl (tag_shown_of_toRegs_eq hs hregs)
  case leaves =>
    obtain hr | ⟨hx, hw⟩ := hev
    · have hphase : (State.resetCore { s with host := s.host.tail }).phase ≠ .done := by simp
      exact ⟨_, step_reset hr hn, hphase, tagOut_of_ne_done hphase, fun hr' => absurd hr (by simp [hr'])⟩
    · obtain ⟨t, ht, ho⟩ := step_outcome hx hn
      have hphase : t.phase ≠ .done := ho.phase_ne_done hs hw
      refine ⟨t, ht, hphase, tagOut_of_ne_done hphase, fun _ hi hop => ?_⟩
      rw [ho.eq_raise (firstError_seq (by simp [hi]) hop (by simp [hs]))]
      exact ⟨rfl, rfl⟩

/-- Settles O39: the latch of an executing core is full, so it shows BUSY and not ready; presenting a command moves the
pins alone, and completion empties the latch and leaves the pins. -/
theorem presentedCommandWaitsWhileBusy : Obligations.PresentedCommandWaitsWhileBusy := by
  intro s c d hx
  have ⟨_, hr, hc⟩ := hx
  refine ⟨by simp [State.cmdReady, hc], ?busy, fun plan ho hh => step_offer_of_none hh ho, fun ho hn => ?waits⟩
  case busy => rw [status_busy]; exact (busy_iff s).mpr ⟨⟨c, hc⟩, hr⟩
  case waits =>
    obtain ⟨t, ht, hframe, -⟩ := step_complete_eq_execute hx hn
    refine ⟨t, ht, ?_⟩
    rw [hframe]
    exact ⟨ho, rfl, (cmdReady_iff _).mpr ⟨rfl, hr⟩⟩

/-- Settles O35: the reset state's fields, the ports in IDLE with nothing latched, and CLEAR's registers. -/
theorem resetStateHoldsTheSpecValues : Obligations.ResetStateHoldsTheSpecValues :=
  ⟨rfl, rfl, rfl, rfl, rfl, rfl, resetCore_status State.reset, tagOut_of_ne_done (by decide),
    fun s => ⟨_, execClear_eq s, clearRegs_toRegs s⟩⟩

/-- Settles O36: a clock edge looks at `rst` before it looks at the latch. -/
theorem resetAbortsTheExecutingCommand : Obligations.ResetAbortsTheExecutingCommand :=
  fun _ hn hr => step_reset hr hn

end Sys2Proof.Machine
end

section
/-! SUPPORT. The encoding of a command read by the decoder, and the rows of the opcode table on the raw bits of a word
(30_encoding R60 to R66). -/

namespace Sys2Proof.Machine

/-! ### What the encoder writes -/

theorem count_lt_of_wellFormed {i : Instr} (h : i.wellFormed = true) : i.count < 256 := by
  cases i with
  | nop | clear => decide
  | init | block | last => exact of_decide_eq_true h

theorem wordOp_commandWord (op : BitVec 4) {cnt : Nat} (h : cnt < 256) : wordOp (commandWord op cnt) = op.toNat := by
  have hop := op.isLt
  rw [wordOp, commandWord_toNat op cnt h]
  omega

theorem wordCnt_commandWord (op : BitVec 4) {cnt : Nat} (h : cnt < 256) : wordCnt (commandWord op cnt) = cnt := by
  have hop := op.isLt
  rw [wordCnt, commandWord_toNat op cnt h]
  omega

theorem not_wordIllegal_encode {i : Instr} (h : i.wellFormed = true) : ¬ wordIllegal (encode i).word = true := by
  have hcount := count_lt_of_wellFormed h
  obtain ⟨-, hrsv0, hrsv1, -⟩ := Laws.EncodeFields.of_count_lt i hcount
  have hop : wordOp (encode i).word = i.opcode.toNat := wordOp_commandWord i.opcode hcount
  have hcnt : wordCnt (encode i).word = i.count := wordCnt_commandWord i.opcode hcount
  rw [wordIllegal_iff, ne_eq (cntField _), ← wordCnt_eq_zero, hop, hcnt, hrsv0, hrsv1]
  cases i <;> simp [Instr.opcode, Instr.count]

/-- A word that is no illegal one is the word of its opcode and its count. -/
theorem commandWord_eq {w : BitVec 32} {op : BitVec 4} {cnt : Nat} (h : ¬ wordIllegal w = true)
    (hop : wordOp w = op.toNat) (hcnt : wordCnt w = cnt) : commandWord op cnt = w := by
  have hlt : cnt < 256 := hcnt ▸ Nat.mod_lt _ (by decide)
  refine BitVec.eq_of_toNat_eq ?_
  rw [commandWord_toNat op cnt hlt, word_eq_of_fields h hcnt hop, BitVec.toNat_ofNat, Nat.mod_eq_of_lt]
  have := op.isLt
  omega

/-! ### Decoding and encoding -/

/-- A command is decoded from the word of its encoding, with its operand unless it has none. -/
theorem decode_of_encode {c : Command} {i : Instr} (h : i.wellFormed = true) (hword : (encode i).word = c.word)
    (hdata : (encode i).data = c.data ∨ i = .nop ∨ i = .clear) : decode c = .command i := by
  have hcount := count_lt_of_wellFormed h
  have hop : wordOp c.word = i.opcode.toNat := hword ▸ wordOp_commandWord i.opcode hcount
  have hcnt : wordCnt c.word = i.count := hword ▸ wordCnt_commandWord i.opcode hcount
  have hd := decode_of_not_wordIllegal (hword ▸ not_wordIllegal_encode h)
  rw [hop, hcnt] at hd
  obtain hdata | rfl | rfl := hdata
  · rw [← hdata] at hd
    cases i <;> simpa [Instr.opcode, Instr.count, encode, Instr.operand] using hd
  · simpa [Instr.opcode] using hd
  · simpa [Instr.opcode] using hd

theorem not_wordIllegal_of_decode {c : Command} {i : Instr} (h : decode c = .command i) :
    ¬ wordIllegal c.word = true := by
  intro hi
  obtain ⟨why, hd⟩ := decode_of_wordIllegal hi
  cases h.symm.trans hd

/-- What the decoder accepts is well formed, and the word and the operand are those of its encoding. -/
theorem encode_of_decode {c : Command} {i : Instr} (h : decode c = .command i) :
    i.wellFormed = true ∧ (encode i).word = c.word ∧ ((encode i).data = c.data ∨ i = .nop ∨ i = .clear) := by
  have hi := not_wordIllegal_of_decode h
  have hcnt : wordCnt c.word < 256 := Nat.mod_lt _ (by decide)
  obtain ⟨hop, hd⟩ | ⟨hop, hd⟩ | ⟨hop, hd⟩ | ⟨hop, hd⟩ | ⟨hop, hd⟩ := decode_of_not_wordIllegal hi <;>
    cases h.symm.trans hd
  case inl => exact ⟨rfl, commandWord_eq hi hop (wordCnt_eq_zero_of_noCount hi (.inl hop)), .inr (.inl rfl)⟩
  case inr.inr.inr.inr => exact ⟨rfl, commandWord_eq hi hop (wordCnt_eq_zero_of_noCount hi (.inr hop)), .inr (.inr rfl)⟩
  all_goals exact ⟨decide_eq_true hcnt, commandWord_eq hi hop rfl, .inl rfl⟩

/-! ### The opcode table -/

section
variable (w : BitVec 32)

theorem rsv0Field_masked : rsv0Field (w &&& 0xFFFF00FF) = rsv0Field w :=
  BitVec.extractLsb'_and.trans BitVec.and_allOnes

theorem rsv1Field_masked : rsv1Field (w &&& 0xFFFF00FF) = rsv1Field w :=
  BitVec.extractLsb'_and.trans BitVec.and_allOnes

theorem wordOp_masked : wordOp (w &&& 0xFFFF00FF) = wordOp w := by
  rw [wordOp_eq, wordOp_eq]
  exact congrArg BitVec.toNat (BitVec.extractLsb'_and.trans BitVec.and_allOnes)

theorem wordCnt_masked : wordCnt (w &&& 0xFFFF00FF) = 0 := by
  rw [wordCnt_eq, cntField, BitVec.extractLsb'_and]
  exact congrArg BitVec.toNat BitVec.and_zero

end

/-- Where the opcode takes a count, the count says nothing about legality (30_encoding R66). -/
theorem wordIllegal_masked {w : BitVec 32} (h : wordOp w ≠ 0 ∧ wordOp w ≠ 4) :
    wordIllegal (w &&& 0xFFFF00FF) = true ↔ wordIllegal w = true := by
  rw [wordIllegal_iff, wordIllegal_iff, rsv0Field_masked, rsv1Field_masked, wordOp_masked]
  simp [h]

/-- The rows of INIT, BLOCK and LAST, whose mask leaves the count out. -/
theorem masked_eq_iff {w : BitVec 32} {op : Nat} (h : 1 ≤ op ∧ op ≤ 3) :
    w &&& 0xFFFF00FF = BitVec.ofNat 32 op ↔ ¬ wordIllegal w = true ∧ wordOp w = op := by
  have hrow : ¬ wordIllegal (BitVec.ofNat 32 op) = true ∧ wordOp (BitVec.ofNat 32 op) = op := by
    obtain ⟨hl, hu⟩ := h
    interval_cases op <;> decide
  constructor
  · intro hm
    have hop : wordOp w = op := by rw [← wordOp_masked, hm, hrow.2]
    rw [← wordIllegal_masked (by omega), hm]
    exact ⟨hrow.1, hop⟩
  · intro ⟨hi, hop⟩
    rw [← wordIllegal_masked (by omega)] at hi
    rw [word_eq_of_fields hi (wordCnt_masked w) ((wordOp_masked w).trans hop), Nat.zero_mul, Nat.zero_add]

/-- The rows of NOP and CLEAR, whose mask takes every bit. -/
theorem word_eq_iff {w : BitVec 32} {op : Nat} (h : op = 0 ∨ op = 4) :
    w = BitVec.ofNat 32 op ↔ ¬ wordIllegal w = true ∧ wordOp w = op := by
  constructor
  · rintro rfl
    obtain rfl | rfl := h <;> decide
  · intro ⟨hi, hop⟩
    have hcnt := wordCnt_eq_zero_of_noCount hi (hop ▸ h)
    rw [word_eq_of_fields hi hcnt hop, Nat.zero_mul, Nat.zero_add]

/-- A row is selected by the words that are not illegal and have its opcode. -/
theorem selects_iff {r : OpcodeRow} (hr : r ∈ opcodeTable) (w : BitVec 32) :
    r.selects w = true ↔ ¬ wordIllegal w = true ∧ wordOp w = r.value.toNat := by
  rw [OpcodeRow.selects, decide_eq_true_iff]
  simp only [opcodeTable, List.mem_cons, List.not_mem_nil, or_false] at hr
  obtain rfl | rfl | rfl | rfl | rfl := hr
  case inl => exact BitVec.and_allOnes ▸ word_eq_iff (.inl rfl)
  case inr.inr.inr.inr => exact BitVec.and_allOnes ▸ word_eq_iff (.inr rfl)
  all_goals exact masked_eq_iff (by decide)

/-- The table's mnemonics and opcodes name the same commands. -/
theorem mnemonic_eq_iff {r : OpcodeRow} (hr : r ∈ opcodeTable) (i : Instr) :
    i.mnemonic = r.mnemonic ↔ i.opcode.toNat = r.value.toNat := by
  simp only [opcodeTable, List.mem_cons, List.not_mem_nil, or_false] at hr
  obtain rfl | rfl | rfl | rfl | rfl := hr <;> cases i <;> simp [Instr.mnemonic, Instr.opcode]

theorem exists_row_of_instr (i : Instr) : ∃ r ∈ opcodeTable, r.value.toNat = i.opcode.toNat := by
  cases i <;> simp [opcodeTable, Instr.opcode]

theorem wordOp_of_decode {c : Command} {i : Instr} (h : decode c = .command i) : wordOp c.word = i.opcode.toNat := by
  obtain ⟨hwf, hword, -⟩ := encode_of_decode h
  rw [← hword]
  exact wordOp_commandWord i.opcode (count_lt_of_wellFormed hwf)

theorem exists_decode_of_not_wordIllegal {c : Command} (h : ¬ wordIllegal c.word = true) :
    ∃ i, decode c = .command i := by
  obtain ⟨-, hd⟩ | ⟨-, hd⟩ | ⟨-, hd⟩ | ⟨-, hd⟩ | ⟨-, hd⟩ := decode_of_not_wordIllegal h <;> exact ⟨_, hd⟩

end Sys2Proof.Machine
end

section
/-! PROOFS. Decoding and encoding, and the opcode table (30_encoding R60 to R66). -/

namespace Sys2Proof.Machine

/-- Settles O1: an encoded word is not illegal, and its opcode and count are those of the command. -/
theorem decodeOfEncodeIsIdentity : Obligations.DecodeOfEncodeIsIdentity :=
  fun _ h => decode_of_encode h rfl (.inl rfl)

/-- Settles O2: a word that is not illegal has no bits but its opcode and count, which the encoder writes again. -/
theorem encodeOfDecodeIsIdentity : Obligations.EncodeOfDecodeIsIdentity :=
  fun _ _ h => encode_of_decode h

/-- Settles O3: a row is selected by the words that are not illegal and have its opcode, and those decode to its
command. -/
theorem decoderFollowsTheOpcodeTable : Obligations.DecoderFollowsTheOpcodeTable := by
  refine fun c m => ⟨?selected, ?decoded⟩
  case selected =>
    rintro ⟨i, hd, rfl⟩
    obtain ⟨r, hr, hop⟩ := exists_row_of_instr i
    exact ⟨r, hr, ((mnemonic_eq_iff hr i).mpr hop.symm).symm,
      (selects_iff hr _).mpr ⟨not_wordIllegal_of_decode hd, (wordOp_of_decode hd).trans hop.symm⟩⟩
  case decoded =>
    rintro ⟨r, hr, rfl, hs⟩
    obtain ⟨hi, hop⟩ := (selects_iff hr _).mp hs
    obtain ⟨i, hd⟩ := exists_decode_of_not_wordIllegal hi
    exact ⟨i, hd, (mnemonic_eq_iff hr i).mpr ((wordOp_of_decode hd).symm.trans hop)⟩

/-- Settles O5: seven words are those of encodings; each of the other three fails one check of R66. -/
theorem writtenOutWordsDecode : Obligations.WrittenOutWordsDecode := by
  have hnop : commandWord 0 0 = 0x00000000 := by decide
  have hinit16 : commandWord 1 16 = 0x00001001 := by decide
  have hinit15 : commandWord 1 15 = 0x00000f01 := by decide
  have hblock : commandWord 2 8 = 0x00000802 := by decide
  have hlast0 : commandWord 3 0 = 0x00000003 := by decide
  have hlast7 : commandWord 3 7 = 0x00000703 := by decide
  have hclear : commandWord 4 0 = 0x00000004 := by decide
  refine fun d => ⟨decode_of_encode rfl hnop (.inr (.inl rfl)), decode_of_encode rfl hinit16 (.inl rfl),
    decode_of_encode rfl hinit15 (.inl rfl), decode_of_encode rfl hblock (.inl rfl),
    decode_of_encode rfl hlast0 (.inl rfl), decode_of_encode rfl hlast7 (.inl rfl),
    decode_of_encode rfl hclear (.inr (.inr rfl)), ?opcode, ?field, ?count⟩
  case opcode => simp [decode, rsv0Field, rsv1Field, opField]
  case field => simp [decode, rsv0Field]
  case count => simp [decode, rsv0Field, rsv1Field, opField, decodeNoCount, cntField]

end Sys2Proof.Machine
end

section
/-! SUPPORT. What is true of the registers of every core that was reset: it holds at reset, every command keeps it, and
no other event writes the registers while power stays on (20_memory R48, 70_reset R186). -/

namespace Sys2Proof.Machine

/-- The registers meet 10_state R25. -/
def CoherentRegs (r : Regs) : Prop :=
  (r.err ≠ 0 ↔ r.phase = .error) ∧ (r.phase = .done → r.tag = fold r.v)

theorem coherent_iff (s : State) : Coherent s ↔ (s.live = true → CoherentRegs s.toRegs) := Iff.rfl

/-- The registers are what their phase implies, beyond R25. -/
def ShapedRegs (r : Regs) : Prop :=
  (r.phase = .idle → r = Regs.reset) ∧ (r.phase = .absorb → r.tag = 0 ∧ r.lenb.toNat % 8 = 0) ∧ r.err.toNat ≤ 4

theorem phaseShape_iff (s : State) : PhaseShape s ↔ (s.live = true → ShapedRegs s.toRegs) := Iff.rfl

/-- A property of the registers of a core that was reset is kept by every step when reset establishes it and every
command keeps it. -/
theorem step_keeps_regs {P : Regs → Prop} (hreset : P Regs.reset)
    (hcmd : ∀ {c : Command} {s t : State}, CommandOutcome c s t → P s.toRegs → P t.toRegs)
    {s t : State} (hs : s.live = true → P s.toRegs) (h : step s = .next t) : t.live = true → P t.toRegs := by
  intro htl
  obtain ⟨-, -, rfl⟩ | ⟨c, -, ⟨hl, -, -⟩, hc⟩ | ⟨_, _, hl, _, _, _, rfl⟩ | ⟨_, ⟨hl, -⟩, rfl⟩ | ⟨_, _, rfl⟩ |
    ⟨hregs, -, hlive, -⟩ := step_changes h
  · exact hreset
  · obtain ⟨u, hu, ho⟩ := execute_outcome c { s with latch := none, host := s.host.tail }
    cases hu.symm.trans hc
    exact hcmd ho (hs hl)
  · exact hs hl
  · exact hs hl
  · cases htl
  · exact hregs ▸ hs (hlive ▸ htl)

theorem coherentRegs_reset : CoherentRegs Regs.reset := by
  simp [CoherentRegs]

theorem shapedRegs_reset : ShapedRegs Regs.reset := by
  simp [ShapedRegs]

theorem code_toNat_le (e : ErrCode) : e.code.toNat ≤ 4 := by
  cases e <;> decide

namespace CommandOutcome

variable {c : Command} {s t : State}

theorem keeps_coherentRegs (h : CommandOutcome c s t) (hs : CoherentRegs s.toRegs) : CoherentRegs t.toRegs := by
  obtain ⟨herr, htag⟩ := hs
  cases h with
  | failed => exact ⟨iff_of_true (code_ne_zero _) rfl, nofun⟩
  | nop => exact ⟨herr, htag⟩
  | init | clear => simp [CoherentRegs, errNone]
  | block he hop =>
    have hp := phase_of_message_command he (.inl hop)
    exact ⟨herr, fun hd => by cases hp.symm.trans hd⟩
  | last he hop =>
    have hp := phase_of_message_command he (.inr hop)
    exact ⟨iff_of_false (fun hne => by cases hp.symm.trans (herr.mp hne)) nofun, fun _ => rfl⟩

theorem keeps_shapedRegs (h : CommandOutcome c s t) (hs : ShapedRegs s.toRegs) : ShapedRegs t.toRegs := by
  obtain ⟨hidle, habsorb, herr⟩ := hs
  cases h with
  | failed => simp [ShapedRegs, code_toNat_le]
  | nop => exact ⟨hidle, habsorb, herr⟩
  | init | clear => simp [ShapedRegs, errNone]
  | block he hop =>
    have hp := phase_of_message_command he (.inl hop)
    obtain ⟨htag, hlenb⟩ := habsorb hp
    have hlenb' : (s.lenb + BitVec.ofNat 8 8).toNat % 8 = 0 := by
      rw [BitVec.toNat_add, BitVec.toNat_ofNat]
      omega
    exact ⟨fun hi => (by cases hp.symm.trans hi), fun _ => ⟨htag, hlenb'⟩, herr⟩
  | last => exact ⟨nofun, nofun, herr⟩

end CommandOutcome

end Sys2Proof.Machine
end

section
/-! PROOFS. The invariants of the registers, and when the registers change (10_state R25, 20_memory R48). -/

namespace Sys2Proof.Machine

/-- Settles O45: reset registers are coherent and shaped. -/
theorem coherentAtReset : Obligations.CoherentAtReset :=
  ⟨(coherent_iff _).mpr fun _ => coherentRegs_reset, (phaseShape_iff _).mpr fun _ => shapedRegs_reset⟩

/-- Settles O46: reset and every command establish or keep R25, and nothing else writes the registers. -/
theorem everyStepKeepsCoherence : Obligations.EveryStepKeepsCoherence :=
  fun s t hs h => (coherent_iff t).mpr
    (step_keeps_regs coherentRegs_reset CommandOutcome.keeps_coherentRegs ((coherent_iff s).mp hs) h)

/-- Settles O47: IDLE is entered with the reset registers, ABSORB with no tag, and BLOCK adds 8 to `lenb`. -/
theorem everyStepKeepsThePhaseShape : Obligations.EveryStepKeepsThePhaseShape :=
  fun s t hs h => (phaseShape_iff t).mpr
    (step_keeps_regs shapedRegs_reset CommandOutcome.keeps_shapedRegs ((phaseShape_iff s).mp hs) h)

/-- Settles O34: of all a step can do, only reset, a completion and a loss of power write the registers. -/
theorem registersChangeOnlyAtCompletionOrReset : Obligations.RegistersChangeOnlyAtCompletionOrReset := by
  intro s t _ h hno hpower
  obtain ⟨hn, hr, -⟩ | ⟨c, hn, ⟨-, -, hc⟩, -⟩ | ⟨_, _, _, _, _, _, rfl⟩ | ⟨_, _, rfl⟩ | ⟨plan, hh, -⟩ | ⟨hregs, -⟩ :=
    step_changes h
  · exact absurd ⟨hn, .inl hr⟩ hno
  · exact absurd ⟨hn, .inr ⟨c, hc⟩⟩ hno
  · rfl
  · rfl
  · exact absurd hh (hpower plan)
  · exact hregs

end Sys2Proof.Machine
end

section
/-! SUPPORT. The host's acts on the command pins, one equation for each case (20_memory R55, R56; 70_reset R185). -/

namespace Sys2Proof.Machine

theorem driveCommand_of_free {s : State} (h : s.offered = none ∨ s.taken = true) (o : Option Command) :
    s.driveCommand o = .next { s with offered := o, taken := false } := if_pos h

theorem driveCommand_of_held {s : State} (h : ¬ (s.offered = none ∨ s.taken = true)) (o : Option Command) :
    s.driveCommand o = .refused .handshakeBroken := if_neg h

theorem offerCommand_of_same {s : State} {c : Command} (h : s.offered = some c) : s.offerCommand c = .next s := if_pos h

theorem offerCommand_of_ne {s : State} {c : Command} (h : s.offered ≠ some c) :
    s.offerCommand c = s.driveCommand (some c) := if_neg h

theorem withdrawCommand_of_none {s : State} (h : s.offered = none) : s.withdrawCommand = .next s := if_pos h

theorem withdrawCommand_of_ne_none {s : State} (h : s.offered ≠ none) :
    s.withdrawCommand = s.driveCommand none := if_neg h

end Sys2Proof.Machine
end

section
/-! SUPPORT. A state with other hidden registers: the outputs, the commands and the events do not tell it from the first
(10_state R20, R22). -/

namespace Sys2Proof.Machine

/-- The state with other state words and another tag register. -/
def State.withHidden (v : StateWords) (tag : Word) (s : State) : State := { s with v := v, tag := tag }

/-- Two states that differ only in what no port shows are one state with two contents of the hidden registers. -/
theorem sameButHidden_iff {s t : State} :
    SameButHidden s t ↔
      ∃ v tag, t = s.withHidden v tag ∧ (s.phase = .absorb → s.v = v) ∧ (s.phase = .done → s.tag = tag) := by
  constructor
  · obtain ⟨⟨_, _, _, _, _⟩, _, _, _, _, _, _, _, _⟩ := s
    obtain ⟨⟨v, _, tag, _, _⟩, _, _, _, _, _, _, _, _⟩ := t
    rintro ⟨rfl, rfl, rfl, rfl, rfl, rfl, rfl, rfl, rfl, rfl, rfl, hv, htag⟩
    exact ⟨v, tag, rfl, hv, htag⟩
  · rintro ⟨v, tag, rfl, hv, htag⟩
    exact ⟨rfl, rfl, rfl, rfl, rfl, rfl, rfl, rfl, rfl, rfl, rfl, hv, htag⟩

theorem SameButHidden.refl (s : State) : SameButHidden s s :=
  sameButHidden_iff.mpr ⟨s.v, s.tag, rfl, fun _ => rfl, fun _ => rfl⟩

section
variable {s : State} {v : StateWords} {tag : Word} (hv : s.phase = .absorb → s.v = v)
  (htag : s.phase = .done → s.tag = tag)
include htag

theorem outputs_withHidden : (s.withHidden v tag).outputs = s.outputs := by
  have htagOut : (s.withHidden v tag).tagOut = s.tagOut := by
    by_cases hd : s.phase = .done
    · exact (tagOut_of_done (s := s.withHidden v tag) hd).trans ((tagOut_of_done hd).trans (htag hd)).symm
    · exact (tagOut_of_ne_done (s := s.withHidden v tag) hd).trans (tagOut_of_ne_done hd).symm
  have htagByte : (s.withHidden v tag).tagByte = s.tagByte := by
    rw [tagByte_eq_byteOf, tagByte_eq_byteOf, htagOut]
    rfl
  rw [State.outputs, htagOut, htagByte]
  rfl

include hv

/-- Every command does the same to both: it reads a hidden register in no phase in which it is hidden, and what it makes
visible it has written. -/
theorem exec_withHidden (i : Instr) :
    OutcomesAgree SameButHidden (exec i s) (exec i (s.withHidden v tag)) := by
  have hrel : SameButHidden s (s.withHidden v tag) := sameButHidden_iff.mpr ⟨v, tag, rfl, hv, htag⟩
  have hraise (e : ErrCode) : SameButHidden (s.raise e) ((s.withHidden v tag).raise e) :=
    sameButHidden_iff.mpr ⟨v, tag, rfl, nofun, nofun⟩
  cases i with
  | nop => exact hrel
  | clear => exact SameButHidden.refl s.clearRegs
  | init cnt d =>
    by_cases hc : cnt = 16
    · subst hc
      exact SameButHidden.refl (s.loadKey d)
    · rw [execInit_keyLen hc, execInit_keyLen hc]
      exact hraise .keyLen
  | block cnt d =>
    by_cases hp : s.phase = .absorb
    · by_cases hc : cnt = 8
      · subst hc
        rw [execBlock_ok hp, execBlock_ok (s := s.withHidden v tag) hp]
        exact sameButHidden_iff.mpr ⟨_, tag, rfl, fun _ => congrArg (compress · (blockWord d)) (hv hp),
          fun hd => by cases hp.symm.trans hd⟩
      · rw [execBlock_cnt hp hc, execBlock_cnt (s := s.withHidden v tag) hp hc]
        exact hraise .cnt
    · rw [execBlock_seq hp, execBlock_seq (s := s.withHidden v tag) hp]
      exact hraise .seq
  | last n d =>
    by_cases hp : s.phase = .absorb
    · by_cases hn : n ≤ 7
      · rw [execLast_ok hp hn, execLast_ok (s := s.withHidden v tag) hp hn]
        obtain rfl := hv hp
        exact SameButHidden.refl (s.absorbWord (tailWord d n (s.lenb + BitVec.ofNat 8 n)) n).finish
      · rw [execLast_cnt hp (by omega), execLast_cnt (s := s.withHidden v tag) hp (by omega)]
        exact hraise .cnt
    · rw [execLast_seq hp, execLast_seq (s := s.withHidden v tag) hp]
      exact hraise .seq

theorem execute_withHidden (c : Command) :
    OutcomesAgree SameButHidden (execute c s) (execute c (s.withHidden v tag)) := by
  cases hd : decode c with
  | command i =>
    rw [execute_of_decode hd, execute_of_decode hd]
    exact exec_withHidden hv htag i
  | illegal why =>
    rw [execute_of_illegal hd, execute_of_illegal hd]
    exact sameButHidden_iff.mpr ⟨v, tag, rfl, nofun, nofun⟩

theorem clockEdge_withHidden :
    OutcomesAgree SameButHidden s.clockEdge (s.withHidden v tag).clockEdge := by
  rcases Bool.eq_false_or_eq_true s.rst with hr | hr
  · rw [clockEdge_reset hr, clockEdge_reset (s := s.withHidden v tag) hr]
    exact SameButHidden.refl s.resetCore
  rcases Bool.eq_false_or_eq_true s.live with hl | hl
  · rcases Option.eq_none_or_eq_some s.latch with hc | ⟨c, hc⟩
    · rcases Option.eq_none_or_eq_some s.offered with ho | ⟨c, ho⟩
      · rw [clockEdge_idle ⟨hl, hr, hc, ho⟩, clockEdge_idle (s := s.withHidden v tag) ⟨hl, hr, hc, ho⟩]
        exact sameButHidden_iff.mpr ⟨v, tag, rfl, hv, htag⟩
      · rw [clockEdge_accept hl hr hc ho, clockEdge_accept (s := s.withHidden v tag) hl hr hc ho]
        exact sameButHidden_iff.mpr ⟨v, tag, rfl, hv, htag⟩
    · rw [clockEdge_complete ⟨hl, hr, hc⟩, clockEdge_complete (s := s.withHidden v tag) ⟨hl, hr, hc⟩]
      exact execute_withHidden (s := { s with latch := none }) hv htag c
  · rw [clockEdge_notReset hr hl, clockEdge_notReset (s := s.withHidden v tag) hr hl]
    rfl

theorem driveCommand_withHidden (o : Option Command) :
    OutcomesAgree SameButHidden (s.driveCommand o) ((s.withHidden v tag).driveCommand o) := by
  by_cases hfree : s.offered = none ∨ s.taken = true
  · rw [driveCommand_of_free hfree, driveCommand_of_free (s := s.withHidden v tag) hfree]
    exact sameButHidden_iff.mpr ⟨v, tag, rfl, hv, htag⟩
  · rw [driveCommand_of_held hfree, driveCommand_of_held (s := s.withHidden v tag) hfree]
    rfl

theorem offerCommand_withHidden (c : Command) :
    OutcomesAgree SameButHidden (s.offerCommand c) ((s.withHidden v tag).offerCommand c) := by
  by_cases ho : s.offered = some c
  · rw [offerCommand_of_same ho, offerCommand_of_same (s := s.withHidden v tag) ho]
    exact sameButHidden_iff.mpr ⟨v, tag, rfl, hv, htag⟩
  · rw [offerCommand_of_ne ho, offerCommand_of_ne (s := s.withHidden v tag) ho]
    exact driveCommand_withHidden hv htag (some c)

theorem withdrawCommand_withHidden :
    OutcomesAgree SameButHidden s.withdrawCommand (s.withHidden v tag).withdrawCommand := by
  by_cases ho : s.offered = none
  · rw [withdrawCommand_of_none ho, withdrawCommand_of_none (s := s.withHidden v tag) ho]
    exact sameButHidden_iff.mpr ⟨v, tag, rfl, hv, htag⟩
  · rw [withdrawCommand_of_ne_none ho, withdrawCommand_of_ne_none (s := s.withHidden v tag) ho]
    exact driveCommand_withHidden hv htag none

theorem hostAct_withHidden (a : HostAct) :
    OutcomesAgree SameButHidden (State.hostAct a s) (State.hostAct a (s.withHidden v tag)) := by
  cases a with
  | clock => exact clockEdge_withHidden hv htag
  | setRst | select => exact sameButHidden_iff.mpr ⟨v, tag, rfl, hv, htag⟩
  | offer c => exact offerCommand_withHidden hv htag c
  | withdraw => exact withdrawCommand_withHidden hv htag
  | losePower => exact SameButHidden.refl s.losePower

theorem step_withHidden : OutcomesAgree SameButHidden (step s) (step (s.withHidden v tag)) := by
  cases hh : s.host with
  | nil =>
    rw [step_of_clockNext (.inl hh), step_of_clockNext (s := s.withHidden v tag) (.inl hh)]
    exact clockEdge_withHidden (s := { s with host := s.host.tail }) hv htag
  | cons a plan =>
    rw [step_of_host_cons hh, step_of_host_cons (s := s.withHidden v tag) hh]
    exact hostAct_withHidden (s := { s with host := plan }) hv htag a

end

end Sys2Proof.Machine
end

section
/-! PROOFS. What no port shows stays unseen (10_state R20, R22; 70_reset R189). -/

namespace Sys2Proof.Machine

/-- Settles O48: the two states are one with two contents of the hidden registers, which no port and no event reads. -/
theorem hiddenRegistersAreNeverObserved : Obligations.HiddenRegistersAreNeverObserved := by
  intro s t h
  obtain ⟨v, tag, rfl, hv, htag⟩ := sameButHidden_iff.mp h
  exact ⟨(outputs_withHidden htag).symm, step_withHidden hv htag⟩

end Sys2Proof.Machine
end

section
/-! SUPPORT. The words of BLOCK and LAST as functions of the lanes they use and as numbers, and the commands' writes as
record updates (41_decomposer R91, R92; 45_commands R130 to R134). -/

namespace Sys2Proof.Machine

/-! ### The lanes a word is packed from -/

theorem blockWord_congr {d e : BitVec 128} (h : ∀ i < 8, lane d i = lane e i) : blockWord d = blockWord e :=
  word_eq_of_bytes fun i hi => by rw [byteOf_blockWord d hi, byteOf_blockWord e hi, h i hi]

theorem tailBytes_congr {d e : BitVec 128} {n : Nat} (h : ∀ i < n, lane d i = lane e i) :
    tailBytes d n = tailBytes e n := by
  induction n with
  | zero => rfl
  | succ n ih => rw [tailBytes, tailBytes, ih fun i hi => h i (by omega), h n (by omega)]

theorem tailWord_congr {d e : BitVec 128} {n : Nat} (h : ∀ i < n, lane d i = lane e i) (len8 : BitVec 8) :
    tailWord d n len8 = tailWord e n len8 := by
  rw [tailWord, tailWord, tailBytes_congr h]

/-- CLEAR's word completes with the reset values, whatever the operand (45_commands R134). -/
theorem execute_of_word_four {c : Command} (h : c.word = 0x00000004) (s : State) : execute c s = .next s.clearRegs := by
  have hword : commandWord 4 0 = 0x00000004 := by decide
  rw [execute_of_decode (decode_of_encode (i := .clear) rfl (hword.trans h.symm) (.inr (.inr rfl))), execClear_eq]

/-! ### The final word as a number -/

/-- The trailing bytes are the low `8 * n` bits of the operand. -/
theorem tailBytes_eq_ofNat (d : BitVec 128) {n : Nat} (hn : n ≤ 8) :
    tailBytes d n = BitVec.ofNat 64 (d.toNat % 2 ^ (8 * n)) := by
  refine word_eq_of_bytes fun i hi => ?_
  rw [byteOf_tailBytes d n i hn]
  refine BitVec.eq_of_getLsbD_eq fun k hk => ?_
  rw [getLsbD_byteOf]
  have hlt : 8 * i + k < 64 := by omega
  rw [BitVec.getLsbD_ofNat, Nat.testBit_mod_two_pow]
  by_cases hin : i < n
  · have : 8 * i + k < 8 * n := by omega
    rw [if_pos hin, getLsbD_lane]
    simp [hk, hlt, this, BitVec.getLsbD]
  · have : ¬ 8 * i + k < 8 * n := by omega
    rw [if_neg hin]
    simp [this]

/-- The length byte as a number: `L mod 256` at bit 56. -/
theorem lengthByte_eq_ofNat (len : Nat) : byteAtPos (BitVec.ofNat 8 len) 7 = BitVec.ofNat 64 (len % 256 * 2 ^ 56) := by
  rw [← lengthByte_eq_byteAtPos, BitVec.shiftLeft_eq_mul_twoPow, BitVec.ofNat_mul]
  rfl

/-- The final word as a number: the trailing bytes below the length byte (41_decomposer R92). -/
theorem tailWord_eq_ofNat (d : BitVec 128) {n : Nat} (hn : n ≤ 7) (len : Nat) :
    tailWord d n (BitVec.ofNat 8 len) = BitVec.ofNat 64 (d.toNat % 2 ^ (8 * n) + len % 256 * 2 ^ 56) := by
  have hlow : d.toNat % 2 ^ (8 * n) < 2 ^ 56 :=
    (Nat.mod_lt _ (by positivity)).trans_le (Nat.pow_le_pow_right (by decide) (by omega))
  have hor : d.toNat % 2 ^ (8 * n) + len % 256 * 2 ^ 56 = d.toNat % 2 ^ (8 * n) ||| len % 256 * 2 ^ 56 := by
    rw [Nat.add_comm, Nat.or_comm, ← Nat.shiftLeft_eq, Nat.shiftLeft_add_eq_or_of_lt hlow]
  rw [tailWord, tailBytes_eq_ofNat d (by omega), lengthByte_eq_ofNat, hor, BitVec.ofNat_or]

/-! ### Runs of BLOCKs -/

/-- A command at the head of a run is executed first (20_memory R52). -/
theorem execAll_cons {i : Instr} {s t : State} (h : exec i s = .next t) (is : List Instr) :
    execAll (i :: is) s = execAll is t := by
  rw [execAll, h]

/-- BLOCKs in ABSORB compress their words in order and add 8 to `lenb` for each. -/
theorem execAll_blocks {s : State} (ds : List (BitVec 128)) (hp : s.phase = .absorb) :
    execAll (ds.map (Instr.block 8)) s = .next { s with
      v := (ds.map blockWord).foldl compress s.v
      lenb := s.lenb + BitVec.ofNat 8 (8 * ds.length) } := by
  induction ds generalizing s with
  | nil => simp [execAll]
  | cons d ds ih =>
    have hlenb : BitVec.ofNat 8 (8 * (d :: ds).length) = 8 + BitVec.ofNat 8 (8 * ds.length) := by
      rw [List.length_cons, Nat.mul_succ, Nat.add_comm, BitVec.ofNat_add]
      rfl
    rw [List.map_cons, execAll_cons (execBlock_ok hp d), ih (s := s.absorbWord (blockWord d) 8) hp, hlenb,
      ← BitVec.add_assoc]
    rfl

end Sys2Proof.Machine
end

section
/-! PROOFS. The commands: results, with everything else unchanged (45_commands R130 to R134). -/

namespace Sys2Proof.Machine

/-- Settles O8: BLOCK reads its word only, LAST the bytes on its lanes only, NOP and CLEAR no operand. -/
theorem ignoredLanesHaveNoEffect : Obligations.IgnoredLanesHaveNoEffect := by
  refine fun s d e => ⟨fun cnt h => ?block, fun cnt h => ?last, ?nop, ?clear⟩
  case block => rw [exec, exec, execBlock, execBlock, blockWord_congr h]
  case last => rw [exec, exec, execLast, execLast, tailWord_congr h]
  case nop => rw [execute_of_word_zero rfl, execute_of_word_zero rfl]
  case clear => rw [execute_of_word_four rfl, execute_of_word_four rfl]

/-- Settles O12: NOP is the one command whose meaning is the state it found. -/
theorem nopCompletesAndChangesNothing : Obligations.NopCompletesAndChangesNothing := execNop_eq

/-- Settles O15: the chunk's word is the low half of the operand. -/
theorem blockCompressesTheChunk : Obligations.BlockCompressesTheChunk := by
  intro s data hp
  rw [execBlock_ok hp, blockWord_eq_extractLsb']
  rfl

/-- Settles O16: the final word's number is the sum of its trailing bytes and its length byte. -/
theorem lastProducesTheTag : Obligations.LastProducesTheTag := by
  intro s n data hp hn len8 m f
  have hlen : s.lenb + BitVec.ofNat 8 n = BitVec.ofNat 8 (s.lenb.toNat + n) := by
    rw [BitVec.ofNat_add, BitVec.ofNat_toNat, BitVec.setWidth_eq]
  have hlen8 : BitVec.ofNat 8 (s.lenb.toNat + n) = BitVec.ofNat 8 len8 :=
    BitVec.eq_of_toNat_eq (by simp [len8])
  rw [execLast_ok hp hn, hlen, tailWord_eq_ofNat data hn, State.finish, State.absorbWord, hlen, hlen8]
  rfl

/-- Settles O17: CLEAR's writes are the reset values. -/
theorem clearRestoresTheResetValues : Obligations.ClearRestoresTheResetValues := execClear_eq

/-- Settles O18: by induction over the operands, each BLOCK on the state the one before it left. -/
theorem blocksFoldInAcceptanceOrder : Obligations.BlocksFoldInAcceptanceOrder := by
  intro s ds hp
  have hwords : ds.map blockWord = ds.map (fun d => d.extractLsb' 0 64) :=
    List.map_congr_left fun d _ => blockWord_eq_extractLsb' d
  rw [execAll_blocks ds hp, hwords, BitVec.ofNat_add, BitVec.ofNat_toNat, BitVec.setWidth_eq]

end Sys2Proof.Machine
end

section
/-! SUPPORT. Which command words meet no error, phase by phase (30_encoding R64, 60_exceptions R166). -/

namespace Sys2Proof.Machine

section
variable {w : BitVec 32} {p : Phase} (he : firstError w p = none)
include he

theorem word_of_block (hop : wordOp w = 2) : w = 0x00000802 := by
  have hi := not_wordIllegal_of_firstError_none he
  have hp := phase_of_message_command he (.inl hop)
  rw [firstError_block hi p hop, if_neg (not_not.mpr hp)] at he
  have hcnt : wordCnt w = 8 := by_contra fun hne => by rw [if_pos hne] at he; cases he
  exact word_eq_of_fields hi hcnt hop

theorem word_of_last (hop : wordOp w = 3) : ∃ n ≤ 7, w = BitVec.ofNat 32 (n * 256 + 3) := by
  have hi := not_wordIllegal_of_firstError_none he
  have hp := phase_of_message_command he (.inr hop)
  rw [firstError_last hi p hop, if_neg (not_not.mpr hp)] at he
  have hcnt : ¬ 7 < wordCnt w := fun hlt => by rw [if_pos hlt] at he; cases he
  exact ⟨wordCnt w, not_lt.mp hcnt, word_eq_of_fields hi rfl hop⟩

/-- A word that meets no error is one of the five commands. -/
theorem wordOp_le_of_firstError_none : wordOp w ≤ 4 := by
  have hi := not_wordIllegal_of_firstError_none he
  by_contra hop
  exact hi ((wordIllegal_iff_fields w).mpr (.inr (.inr (.inl (by omega)))))

end

/-- The words that meet no error in any phase: NOP, INIT.16 and CLEAR. -/
abbrev controlWords : List (BitVec 32) := [0x00000000, 0x00001001, 0x00000004]

/-- The words that meet no error in ABSORB. -/
abbrev absorbWords : List (BitVec 32) :=
  [0x00000000, 0x00001001, 0x00000802, 0x00000003, 0x00000103, 0x00000203, 0x00000303,
    0x00000403, 0x00000503, 0x00000603, 0x00000703, 0x00000004]

theorem firstError_absorb_none_iff (w : BitVec 32) : firstError w .absorb = none ↔ w ∈ absorbWords := by
  constructor
  · intro he
    have hop := wordOp_le_of_firstError_none he
    obtain hop | hop | hop | hop | hop :
        wordOp w = 0 ∨ wordOp w = 1 ∨ wordOp w = 2 ∨ wordOp w = 3 ∨ wordOp w = 4 := by omega
    · rw [word_of_nop he hop]; decide
    · rw [word_of_init he hop]; decide
    · rw [word_of_block he hop]; decide
    · obtain ⟨n, hn, rfl⟩ := word_of_last he hop
      interval_cases n <;> decide
    · rw [word_of_clear he hop]; decide
  · intro hw
    fin_cases hw <;> decide

theorem firstError_none_iff (w : BitVec 32) {p : Phase} (hp : p ≠ .absorb) :
    firstError w p = none ↔ w ∈ controlWords := by
  constructor
  · intro he
    have hop := wordOp_le_of_firstError_none he
    obtain hop | hop | hop | hop :
        wordOp w = 0 ∨ wordOp w = 1 ∨ wordOp w = 4 ∨ (wordOp w = 2 ∨ wordOp w = 3) := by omega
    · rw [word_of_nop he hop]; decide
    · rw [word_of_init he hop]; decide
    · rw [word_of_clear he hop]; decide
    · exact absurd (phase_of_message_command he hop) hp
  · intro hw
    fin_cases hw <;> cases p <;> decide

namespace CommandOutcome

variable {c : Command} {s t : State}

/-- Outside ERROR a command ends in ERROR exactly when it meets an error. -/
theorem phase_ne_error_iff (h : CommandOutcome c s t) (hs : s.phase ≠ .error) :
    t.phase ≠ .error ↔ firstError c.word s.phase = none := by
  constructor
  · intro ht
    by_contra hne
    obtain ⟨e, he⟩ := Option.ne_none_iff_exists'.mp hne
    exact ht (by rw [h.eq_raise he]; rfl)
  · intro he
    obtain ht | ⟨-, rfl⟩ := h.phase_ne_error_or_nop he
    · exact ht
    · exact hs

/-- ERROR is left by INIT.16 and CLEAR alone. -/
theorem leaves_error_iff (h : CommandOutcome c s t) (hs : s.phase = .error) :
    t.phase ≠ .error ↔ c.word ∈ [0x00001001, 0x00000004] := by
  constructor
  · intro ht
    obtain ⟨hw, -⟩ | ⟨hw, -⟩ := h.leaves_error hs ht <;> simp [hw]
  · intro hw
    have he : firstError c.word s.phase = none :=
      (firstError_none_iff c.word (by simp [hs])).mpr (List.mem_cons_of_mem _ hw)
    obtain ht | ⟨hzero, -⟩ := h.phase_ne_error_or_nop he
    · exact ht
    · rw [hzero] at hw
      exact absurd hw (by decide)

end CommandOutcome

end Sys2Proof.Machine
end

section
/-! PROOFS. The words that succeed, phase by phase (30_encoding R64). -/

namespace Sys2Proof.Machine

/-- Settles O25: a command ends in ERROR when it meets an error; the words that meet none are listed for ABSORB and for
the other phases. -/
theorem exactlyTwelveWordsSucceed : Obligations.ExactlyTwelveWordsSucceed := by
  intro s c hx hn
  obtain ⟨t, ht, ho⟩ := step_outcome hx hn
  refine ⟨t, ht, fun hp => ?absorb, fun hp => ?idleOrDone, fun hp => ⟨ho.leaves_error_iff hp, fun hw => ?nop,
    fun hw => ?errors⟩, fun hop => ?reserved⟩
  case absorb =>
    rw [ho.phase_ne_error_iff (by simp [hp])]
    exact hp ▸ firstError_absorb_none_iff c.word
  case idleOrDone =>
    have hne : s.phase ≠ .error ∧ s.phase ≠ .absorb := by obtain hp | hp := hp <;> simp [hp]
    rw [ho.phase_ne_error_iff hne.1]
    exact firstError_none_iff c.word hne.2
  case nop =>
    cases (execute_of_word_zero hw _).symm.trans ((step_complete hx hn).symm.trans ht)
    rfl
  case errors =>
    have hne : s.phase ≠ .absorb := by simp [hp]
    obtain ⟨e, he⟩ := Option.ne_none_iff_exists'.mp (mt (firstError_none_iff c.word hne).mp hw)
    rw [ho.eq_raise he, raise_of_error (s := { s with latch := none, host := s.host.tail }) hp]
    exact ⟨e, rfl⟩
  case reserved =>
    have hi : wordIllegal c.word = true := (wordIllegal_iff_fields c.word).mpr (.inr (.inr (.inl hop)))
    rw [ho.eq_raise (firstError_of_wordIllegal hi _)]
    exact ⟨rfl, rfl⟩

end Sys2Proof.Machine
end

section
/-! SUPPORT. Events in a row, and the ports of a core that has just accepted a command (20_memory R52, R55). -/

namespace Sys2Proof.Machine

/-- One step inside a run is the step. -/
theorem run_one (s : State) : Host.Core.run Sys2Proof.core 1 s = step s := by
  cases h : step s <;> simp [Host.Core.run, Sys2Proof.core, h]

/-- A command answers a state that differs in the registers alone. -/
theorem execute_answers_regs (c : Command) (s : State) : ∃ r, execute c s = .next { s with toRegs := r } := by
  obtain ⟨t, ht⟩ := execute_answers_next c s
  exact ⟨t.toRegs, ht.trans (congrArg Host.Outcome.next (execute_frame ht))⟩

/-- A run that goes on is continued from where it ended. -/
theorem run_add {m : Nat} {s t : State} (h : Host.Core.run Sys2Proof.core m s = .next t) (n : Nat) :
    Host.Core.run Sys2Proof.core (m + n) s = Host.Core.run Sys2Proof.core n t := by
  induction m generalizing s with
  | zero => cases h; rw [Nat.zero_add]
  | succ m ih =>
    cases hs : step s with
    | next u =>
      rw [run_succ_of_step hs] at h
      rw [Nat.succ_add, run_succ_of_step hs, ih h]
    | fault f => simp [Host.Core.run, Sys2Proof.core, hs] at h
    | refused r => simp [Host.Core.run, Sys2Proof.core, hs] at h

/-- Acceptance and completion of the presented command are its effect on the committed state. -/
theorem run_accept_complete {s : State} {c : Command} {plan : List HostAct} (hl : s.live = true) (hr : s.rst = false)
    (hc : s.latch = none) (ho : s.offered = some c) (hh : s.host = .clock :: .clock :: plan) :
    Host.Core.run Sys2Proof.core 2 s = execute c { s with taken := true, host := plan } := by
  have haccept : step s = .next (State.accept c { s with host := .clock :: plan }) := by
    rw [step_accept (.inr (by simp [hh])) hl hr hc ho, hh]
    rfl
  have hcomplete := step_complete (s := State.accept c { s with host := .clock :: plan }) ⟨hl, hr, rfl⟩ (.inr rfl)
  have hstate : { State.accept c { s with host := .clock :: plan } with latch := none, host := plan } =
      { s with taken := true, host := plan } := by rw [State.accept, ← hc]
  rw [run_succ_of_step haccept, run_one, hcomplete]
  exact congrArg (execute c) hstate

/-- Acceptance sets BUSY in STATUS and nothing else (10_state R26, 70_reset R184). -/
theorem status_accept {s : State} (hc : s.latch = none) (hr : s.rst = false) (c : Command) :
    (s.accept c).status = s.status ||| 0x0008 := by
  have hbusy : s.busy = false := by simp [State.busy, hc]
  have hbusy' : (s.accept c).busy = true := by simp [State.busy, hr]
  have htagValid : (s.accept c).tagValid = s.tagValid := rfl
  refine BitVec.eq_of_getLsbD_eq fun i hi => ?_
  rw [State.status, hbusy', htagValid, BitVec.getLsbD_or, State.status, hbusy]
  simp only [BitVec.getLsbD_append]
  interval_cases i <;> simp

end Sys2Proof.Machine
end

section
/-! PROOFS. The handshake: acceptance, completion and the host's acts on the pins (20_memory R41 to R56, 70_reset R180
to R185, 93 U3, U4). -/

namespace Sys2Proof.Machine

/-- Settles O37: completion is the meaning of what the word decodes to. -/
theorem stepRunsTheDecodedCommand : Obligations.StepRunsTheDecodedCommand := by
  refine fun s c hx hn => ⟨fun i hd => ?_, fun why hd => ?_⟩ <;> rw [step_complete hx hn]
  · exact execute_of_decode hd _
  · exact execute_of_illegal hd _

/-- Settles O38: the accepting edge fills the latch, which `cmd_ready` and BUSY show. -/
theorem acceptanceLatchesTheCommand : Obligations.AcceptanceLatchesTheCommand := by
  intro s c hl hr hc ho hn
  exact ⟨(cmdReady_iff s).mpr ⟨hc, hr⟩, _, step_accept hn hl hr hc ho, rfl, rfl,
    status_accept (s := { s with host := s.host.tail }) hc hr c, rfl, rfl⟩

/-- Settles O40: between the accepting and the completing edge nothing touches the registers. -/
theorem acceptedCommandIsOneTransition : Obligations.AcceptedCommandIsOneTransition :=
  fun _ _ _ hl hr hc ho hh => run_accept_complete hl hr hc ho hh

/-- Settles O41: an edge of a ready core with nothing to accept is idle. -/
theorem idleCoreHoldsEveryRegister : Obligations.IdleCoreHoldsEveryRegister := by
  intro s hy hn
  have ⟨_, hr, hc, _⟩ := hy
  refine ⟨(cmdReady_iff s).mpr ⟨hc, hr⟩, ?_⟩
  rw [step_of_clockNext hn]
  exact clockEdge_idle (s := { s with host := s.host.tail }) hy

/-- Settles O42: each act of the host is one record update of its pin, or none. -/
theorem pinsMoveNothingButThemselves : Obligations.PinsMoveNothingButThemselves := by
  refine fun s plan => ⟨fun b hh => ?select, fun level hh => ?setRst, fun c hh ho => step_offer_of_none hh ho,
    fun c hh ho => ?same, fun hh ho => ?withdraw⟩
  case select => exact step_of_host_cons hh
  case setRst => exact step_of_host_cons hh
  case same => exact (step_of_host_cons hh).trans (offerCommand_of_same (s := { s with host := plan }) ho)
  case withdraw => exact (step_of_host_cons hh).trans (withdrawCommand_of_none (s := { s with host := plan }) ho)

/-- Settles O43: a presented command that was not accepted since holds the pins. -/
theorem brokenHandshakeIsRefused : Obligations.BrokenHandshakeIsRefused := by
  intro s c d plan ho ht
  have hheld (o : Option Command) : State.driveCommand o { s with host := plan } = .refused .handshakeBroken :=
    driveCommand_of_held (by simp [ho, ht]) o
  refine ⟨fun hne hh => ?change, fun hh => ?drop⟩
  case change =>
    rw [step_of_host_cons hh, State.hostAct, offerCommand_of_ne (by simp [ho, hne]), hheld]
  case drop =>
    rw [step_of_host_cons hh, State.hostAct, withdrawCommand_of_ne_none (by simp [ho]), hheld]

/-- Settles O44: a loss of power clears `live`, without which an edge is refused or a reset. -/
theorem powerLossNeedsAReset : Obligations.PowerLossNeedsAReset := by
  refine fun s => ⟨fun plan hh => ?loss, fun hl hn hr => ?refused, fun _ hn hr => ?reset⟩
  case loss => exact ⟨_, step_of_host_cons hh, rfl, rfl, rfl, rfl, rfl, rfl⟩
  case refused =>
    rw [step_of_clockNext hn]
    exact clockEdge_notReset (s := { s with host := s.host.tail }) hr hl
  case reset => exact ⟨_, step_reset hr hn, rfl, rfl, rfl⟩

/-- Settles O53: the third edge finds the core ready and the command still on the pins. -/
theorem commandHeldOnThePinsIsAcceptedAgain : Obligations.CommandHeldOnThePinsIsAcceptedAgain := by
  intro s c plan hl hr hc ho hh
  obtain ⟨r, ht⟩ := execute_answers_regs c { s with taken := true, host := plan }
  have hpair : Host.Core.run Sys2Proof.core 2 s =
      .next { s with toRegs := r, taken := true, host := .clock :: plan } :=
    (run_accept_complete hl hr hc ho hh).trans (execute_regs_only ht { s with taken := true, host := .clock :: plan })
  refine ⟨_, ht, (run_add hpair 1).trans ((run_one _).trans ?_)⟩
  exact step_accept (s := { s with toRegs := r, taken := true, host := .clock :: plan }) (.inr rfl) hl hr hc ho

end Sys2Proof.Machine
end

section
/-! SUPPORT. The words that the operands of DIGEST carry (41_decomposer R90 to R95, 30_encoding R65, R69). -/

namespace Sys2Proof.Machine

theorem byteOf_le64At (bs : List Byte) (i : Nat) {k : Nat} (hk : k < 8) :
    byteOf (le64At bs i) k = byteAt bs (i + k) := by
  rw [le64At, byteOf_le64 _ _ _ _ _ _ _ _ k hk]
  interval_cases k <;> rfl

/-- A word of eight adjacent lanes that the host filled is packed from the host's bytes. -/
theorem extractLsb'_onLanes {bs : List Byte} (rest : BitVec 128) {j : Nat} (hbs : j + 8 ≤ bs.length) (hj : j + 8 ≤ 16) :
    (onLanes bs rest).extractLsb' (8 * j) 64 = le64At bs j := by
  refine word_eq_of_bytes fun k hk => ?_
  rw [byteOf_extractLsb' _ j hk, byteOf_le64At bs j hk, lane_onLanes bs rest (j + k) (by omega) (by omega)]
  rfl

theorem keyLow_onLanes {key : List Byte} (hkey : key.length = 16) (rest : BitVec 128) :
    keyLow (onLanes key rest) = le64At key 0 := by
  rw [keyLow_eq_extractLsb', extractLsb'_onLanes (j := 0) rest (by omega) (by omega)]

theorem keyHigh_onLanes {key : List Byte} (hkey : key.length = 16) (rest : BitVec 128) :
    keyHigh (onLanes key rest) = le64At key 8 := by
  rw [keyHigh_eq_extractLsb', extractLsb'_onLanes (j := 8) rest (by omega) (by omega)]

/-- The word of a chunk of the message. -/
theorem le64At_take_drop (msg : List Byte) (i : Nat) : le64At ((msg.drop i).take 8) 0 = le64At msg i := by
  refine word_eq_of_bytes fun k hk => ?_
  rw [byteOf_le64At _ 0 hk, byteOf_le64At _ i hk, byteAt, byteAt, List.getD_eq_getElem?_getD,
    List.getD_eq_getElem?_getD, Nat.zero_add, List.getElem?_take_of_lt hk, List.getElem?_drop]

/-- BLOCK's word is the message word of its chunk (41_decomposer R91, R93). -/
theorem blockWord_onLanes {msg : List Byte} {j : Nat} (hj : j < msg.length / 8) (rest : BitVec 128) :
    blockWord (onLanes ((msg.drop (8 * j)).take 8) rest) = le64At msg (8 * j) := by
  have hlen : 0 + 8 ≤ ((msg.drop (8 * j)).take 8).length := by
    rw [List.length_take, List.length_drop]
    omega
  rw [blockWord_eq_extractLsb', extractLsb'_onLanes (j := 0) rest hlen (by omega), le64At_take_drop]

theorem length_drop_full (msg : List Byte) : (msg.drop (8 * (msg.length / 8))).length = msg.length % 8 := by
  rw [List.length_drop]
  omega

/-- LAST's word is the final word of the message (41_decomposer R92, R93). -/
theorem tailWord_onLanes (msg : List Byte) (rest : BitVec 128) :
    tailWord (onLanes (msg.drop (8 * (msg.length / 8))) rest) (msg.length % 8) (BitVec.ofNat 8 msg.length) =
      finalWord msg := by
  have hlen := length_drop_full msg
  refine word_eq_of_bytes fun k hk => ?_
  rw [byteOf_tailWord _ (by omega), byteOf_finalWord msg hk]
  by_cases hin : k < msg.length % 8
  · rw [if_pos hin, if_neg (by omega), lane_onLanes _ rest k (by omega) (by omega)]
  · rw [if_neg hin, List.getD_eq_default _ _ (by omega)]

/-- The length byte that LAST writes after the BLOCKs (10_state R21). -/
theorem lenb_after_blocks (len : Nat) :
    BitVec.ofNat 8 (8 * (len / 8)) + BitVec.ofNat 8 (len % 8) = BitVec.ofNat 8 len := by
  rw [← BitVec.ofNat_add, Nat.div_add_mod]

/-- The operands of the BLOCKs of `DIGEST key, M`. -/
def blockOperands (msg : List Byte) (junk : Nat → BitVec 128) : List (BitVec 128) :=
  (List.range (msg.length / 8)).map fun j => onLanes ((msg.drop (8 * j)).take 8) (junk (j + 1))

/-- The operand of the LAST of `DIGEST key, M`. -/
def lastOperand (msg : List Byte) (junk : Nat → BitVec 128) : BitVec 128 :=
  onLanes (msg.drop (8 * (msg.length / 8))) (junk (msg.length / 8 + 1))

/-- The words compressed from these operands are `Words(M)` (41_decomposer R95). -/
theorem words_of_operands (msg : List Byte) (junk : Nat → BitVec 128) :
    (blockOperands msg junk).map blockWord ++
      [tailWord (lastOperand msg junk) (msg.length % 8) (BitVec.ofNat 8 msg.length)] = words msg := by
  have hblocks : (blockOperands msg junk).map blockWord =
      (List.range (msg.length / 8)).map fun j => le64At msg (8 * j) := by
    rw [blockOperands, List.map_map]
    exact List.map_congr_left fun j hj => blockWord_onLanes (List.mem_range.mp hj) _
  rw [hblocks, lastOperand, tailWord_onLanes, words]

end Sys2Proof.Machine
end

section
/-! SUPPORT. The commands of DIGEST: what they decode to, and what executing them in turn does (30_encoding R69,
44_finalization R123). -/

namespace Sys2Proof.Machine

theorem decode_asmInit (key : List Byte) (rest : BitVec 128) :
    decode (asmInit 16 key rest) = .command (.init 16 (onLanes key rest)) := by
  have hword : commandWord 1 16 = BitVec.ofNat 32 (16 * 256 + 1) := by decide
  exact decode_of_encode rfl hword (.inl rfl)

theorem decode_asmBlock (chunk : List Byte) (rest : BitVec 128) :
    decode (asmBlock chunk rest) = .command (.block 8 (onLanes chunk rest)) := by
  have hword : commandWord 2 8 = 0x00000802 := by decide
  exact decode_of_encode rfl hword (.inl rfl)

theorem decode_asmLast {tail : List Byte} (h : tail.length < 256) (rest : BitVec 128) :
    decode (asmLast tail rest) = .command (.last tail.length (onLanes tail rest)) := by
  have hword : commandWord 3 tail.length = BitVec.ofNat 32 (tail.length * 256 + 3) := by
    refine BitVec.eq_of_toNat_eq ?_
    rw [commandWord_toNat 3 _ h, BitVec.toNat_ofNat, Nat.mod_eq_of_lt (by omega)]
    rfl
  exact decode_of_encode (decide_eq_true h) hword (.inl rfl)

/-- The commands of `DIGEST key, M`, decoded. -/
def digestInstrs (key msg : List Byte) (junk : Nat → BitVec 128) : List Instr :=
  .init 16 (onLanes key (junk 0)) ::
    ((blockOperands msg junk).map (Instr.block 8) ++ [.last (msg.length % 8) (lastOperand msg junk)])

theorem map_decode_digestCommands (key msg : List Byte) (junk : Nat → BitVec 128) :
    (digestCommands key msg junk).map decode = (digestInstrs key msg junk).map Decoded.command := by
  have hblocks : ((List.range (msg.length / 8)).map fun j =>
      asmBlock ((msg.drop (8 * j)).take 8) (junk (j + 1))).map decode =
        ((blockOperands msg junk).map (Instr.block 8)).map Decoded.command := by
    rw [blockOperands, List.map_map, List.map_map, List.map_map]
    exact List.map_congr_left fun j _ => decode_asmBlock _ _
  have hlast : decode (asmLast (msg.drop (8 * (msg.length / 8))) (junk (msg.length / 8 + 1))) =
      .command (.last (msg.length % 8) (lastOperand msg junk)) := by
    have htail := length_drop_full msg
    rw [decode_asmLast (by omega), htail, lastOperand]
  rw [digestCommands, digestInstrs, List.map_cons, List.map_cons, decode_asmInit, List.map_append, List.map_append,
    hblocks, List.map_singleton, List.map_singleton, hlast]

theorem length_digestCommands (key msg : List Byte) (junk : Nat → BitVec 128) :
    (digestCommands key msg junk).length = msg.length / 8 + 2 := by
  simp [digestCommands]

/-- A run of commands that goes on is continued from where it ended. -/
theorem execAll_append {is : List Instr} {s t : State} (h : execAll is s = .next t) (js : List Instr) :
    execAll (is ++ js) s = execAll js t := by
  induction is generalizing s with
  | nil => cases h; rfl
  | cons i is ih =>
    obtain ⟨u, hu⟩ := exec_answers_next i s
    rw [execAll_cons hu] at h
    rw [List.cons_append, execAll_cons hu, ih h]

/-- A run of commands reads and writes the architectural registers only. -/
theorem execAll_regs_only {is : List Instr} {s t : State} (h : execAll is s = .next t) (u : State) :
    execAll is { u with toRegs := s.toRegs } = .next { u with toRegs := t.toRegs } := by
  induction is generalizing s with
  | nil => cases h; rfl
  | cons i is ih =>
    obtain ⟨w, hw⟩ := exec_answers_next i s
    rw [execAll_cons hw] at h
    rw [execAll_cons (exec_regs_only hw u), ih h]

/-- The BLOCKs and the LAST of DIGEST, from a key just loaded, absorb `Words(M)` and fold the tag. -/
theorem execAll_absorb (msg : List Byte) (junk : Nat → BitVec 128) {s : State} (hp : s.phase = .absorb)
    (hlenb : s.lenb = 0) :
    ∃ t, execAll ((blockOperands msg junk).map (Instr.block 8) ++ [.last (msg.length % 8) (lastOperand msg junk)]) s =
        .next t ∧
      t.phase = .done ∧ t.err = s.err ∧ t.lenb = BitVec.ofNat 8 msg.length ∧
      t.tag = fold (finalize ((words msg).foldl compress s.v)) := by
  obtain ⟨u, hu, hup, huerr, hulenb, huv⟩ : ∃ u, execAll ((blockOperands msg junk).map (Instr.block 8)) s = .next u ∧
      u.phase = .absorb ∧ u.err = s.err ∧ u.lenb = BitVec.ofNat 8 (8 * (msg.length / 8)) ∧
      u.v = ((blockOperands msg junk).map blockWord).foldl compress s.v :=
    ⟨_, execAll_blocks _ hp, hp, rfl, by simp [hlenb, blockOperands], rfl⟩
  have hlast := execLast_ok hup (show msg.length % 8 ≤ 7 by omega) (lastOperand msg junk)
  refine ⟨_, (execAll_append hu _).trans (execAll_cons hlast []), rfl, huerr, ?lenb, ?tag⟩
  case lenb => rw [finish_lenb, absorbWord_lenb, hulenb, lenb_after_blocks]
  case tag =>
    rw [finish_tag, absorbWord_v, huv, hulenb, lenb_after_blocks, ← words_of_operands msg junk, List.foldl_append]
    rfl

/-- DIGEST, executed from any state, ends in DONE with the tag of R122. -/
theorem execAll_digestInstrs {key : List Byte} (hkey : key.length = 16) (msg : List Byte) (junk : Nat → BitVec 128)
    (s : State) :
    ∃ t, execAll (digestInstrs key msg junk) s = .next t ∧ t.phase = .done ∧ t.err = 0 ∧
      t.lenb = BitVec.ofNat 8 msg.length ∧ t.tag = sipHash24 key msg := by
  obtain ⟨t, ht, hphase, herr, hlenb, htag⟩ :=
    execAll_absorb msg junk (s := s.loadKey (onLanes key (junk 0))) rfl rfl
  refine ⟨t, (execAll_cons (execInit_ok _ s) _).trans ht, hphase, herr, hlenb, ?_⟩
  rw [htag, loadKey_v, keyLow_onLanes hkey, keyHigh_onLanes hkey, sipHash24]

end Sys2Proof.Machine
end

section
/-! SUPPORT. A host that issues commands one after another (20_memory R55, R56). -/

namespace Sys2Proof.Machine

/-- One issued command: presented, accepted, dropped from the pins, completed. -/
theorem run_issue_one {s : State} {c : Command} {plan : List HostAct} (hy : Ready s)
    (hh : s.host = .offer c :: .clock :: .withdraw :: .clock :: plan) :
    Host.Core.run Sys2Proof.core 4 s = execute c { s with taken := false, host := plan } := by
  obtain ⟨hl, hr, hc, ho⟩ := hy
  have hpresent := step_offer_of_none hh ho
  have haccept := step_accept (s :=
      { s with offered := some c, taken := false, host := .clock :: .withdraw :: .clock :: plan })
    (.inr rfl) hl hr hc rfl
  have hdrop := step_withdraw_of_taken (s :=
      { s with latch := some c, offered := some c, taken := true, host := .withdraw :: .clock :: plan })
    rfl nofun rfl
  have hcomplete := step_complete (s :=
      { s with latch := some c, offered := none, taken := false, host := .clock :: plan })
    ⟨hl, hr, rfl⟩ (.inr rfl)
  have hpins : ({ s with latch := none, offered := none, taken := false, host := plan } : State) =
      { s with taken := false, host := plan } := by rw [hc, ho]
  rw [run_succ_of_step hpresent, run_succ_of_step haccept]
  refine (run_succ_of_step hdrop 1).trans ((run_one _).trans (hcomplete.trans ?_))
  exact congrArg (execute c) hpins

/-- A host that issues commands to a ready core has them executed in turn, and leaves the core ready. -/
theorem run_issue {cs : List Command} {is : List Instr} (hd : cs.map decode = is.map Decoded.command) {s : State}
    {plan : List HostAct} (hy : Ready s) (hh : s.host = issue cs ++ plan) :
    ∃ t, Host.Core.run Sys2Proof.core (4 * cs.length) s = .next t ∧ Ready t ∧ t.host = plan ∧
      execAll is s = .next { s with toRegs := t.toRegs } := by
  induction cs generalizing is s with
  | nil =>
    obtain rfl := List.map_eq_nil_iff.mp hd.symm
    exact ⟨s, rfl, hy, hh, rfl⟩
  | cons c cs ih =>
    obtain ⟨i, is, rfl, hi, his⟩ := List.map_eq_cons_iff.mp hd.symm
    obtain ⟨r, hr⟩ := execute_answers_regs c { s with taken := false, host := issue cs ++ plan }
    obtain ⟨t, ht, hyt, hht, hxt⟩ :=
      ih his.symm (s := { s with toRegs := r, taken := false, host := issue cs ++ plan }) hy rfl
    have hone : Host.Core.run Sys2Proof.core 4 s =
        .next { s with toRegs := r, taken := false, host := issue cs ++ plan } :=
      (run_issue_one hy hh).trans hr
    have hexec : exec i s = .next { s with toRegs := r } := by
      rw [← execute_of_decode hi.symm]
      exact execute_regs_only hr s
    refine ⟨t, ?_, hyt, hht, ?_⟩
    · rw [List.length_cons, Nat.mul_succ, Nat.add_comm, run_add hone, ht]
    · rw [execAll_cons hexec]
      exact execAll_regs_only hxt s

end Sys2Proof.Machine
end

section
/-! PROOFS. DIGEST computes SipHash-2-4 (41_decomposer R95, 44_finalization R123). -/

namespace Sys2Proof.Machine

/-- Settles O50: the lanes of each operand hold the message's bytes, so each word has the bytes of its message word. -/
theorem compressedWordsAreTheMessageWords : Obligations.CompressedWordsAreTheMessageWords := by
  intro msg junk full lenAfterBlocks
  have h := words_of_operands msg junk
  rw [blockOperands, List.map_map, lastOperand, ← lenb_after_blocks] at h
  exact h

/-- Settles O51: by induction over the commands the run is their execution in turn, which absorbs `Words(M)`. -/
theorem digestCommandsComputeSipHash24 : Obligations.DigestCommandsComputeSipHash24 := by
  intro s key msg junk plan hkey hy hh
  obtain ⟨t, ht, hyt, hht, hxt⟩ := run_issue (map_decode_digestCommands key msg junk) hy hh
  obtain ⟨u, hu, hphase, herr, hlenb, htag⟩ := execAll_digestInstrs hkey msg junk s
  cases hxt.symm.trans hu
  rw [length_digestCommands] at ht
  refine ⟨t, ht, hphase, herr, ?_, htag, (tagOut_of_done hphase).trans htag, hyt, hht⟩
  rw [show t.lenb = _ from hlenb, BitVec.toNat_ofNat]

end Sys2Proof.Machine
end
